-- ==== Sys2Proof/Word.lean ====
section
/-! DEFINITION. The value types of the block (00_scope.md R6, R7): every value is an unsigned bit vector, bit 0 the least
significant. -/

namespace Sys2Proof

/-- A data byte on any port (R6: "Byte width", 8 bits). -/
abbrev Byte := BitVec 8

/-- A command word and a response value (R6, R60, R66): 32 bits. -/
abbrev Word := BitVec 32

/-- A Unicode code point: the ENC operand and the DEC result (R6, R63): 21 bits. -/
abbrev CodePoint := BitVec 21

/-- The CRC register (R6, R100): 16 bits. -/
abbrev Crc16 := BitVec 16

end Sys2Proof
end

