-- ==== Sys2Proof/Syntax.lean ====
section
/-! DEFINITION. The commands of the block (30_encoding.md R60 to R64), one constructor of `Instr` per row of
spec/opcode_table.json, and the assembler's raw source commands (R70), whose operands are not checked yet. -/

namespace Sys2Proof

/-- One command with its operand as decoded (R64): F0 commands carry none, FB commands a byte, ENC a code point. -/
inductive Instr
  | enc (cp : CodePoint)
  | dec (b : Byte)
  | crcInit
  | crcFeed (b : Byte)
  | crcTag
  | vfyInit
  | vfyFeed (b : Byte)
  | vfyEnd
  | ftxBegin
  | ftxByte (b : Byte)
  | ftxEnd
  | frxInit
  | frxByte (b : Byte)
  | frxEnd
  | frxStat
  deriving DecidableEq, Repr

/-- The mnemonic column of R64. -/
inductive Mnemonic
  | enc | dec | crcInit | crcFeed | crcTag | vfyInit | vfyFeed | vfyEnd
  | ftxBegin | ftxByte | ftxEnd | frxInit | frxByte | frxEnd | frxStat
  deriving DecidableEq, Repr

/-- The format column of R64: F0 (R61), FB (R62), FC (R63). -/
inductive Format
  | f0 | fb | fc
  deriving DecidableEq, Repr

/-- The units of R1 and the unit column of R64. -/
inductive BlockUnit
  | codec | generator | checker | transmitter | receiver
  deriving DecidableEq, Repr

/-- The row of R64 a command belongs to. -/
def Instr.mnemonic : Instr → Mnemonic
  | .enc _ => .enc
  | .dec _ => .dec
  | .crcInit => .crcInit
  | .crcFeed _ => .crcFeed
  | .crcTag => .crcTag
  | .vfyInit => .vfyInit
  | .vfyFeed _ => .vfyFeed
  | .vfyEnd => .vfyEnd
  | .ftxBegin => .ftxBegin
  | .ftxByte _ => .ftxByte
  | .ftxEnd => .ftxEnd
  | .frxInit => .frxInit
  | .frxByte _ => .frxByte
  | .frxEnd => .frxEnd
  | .frxStat => .frxStat

/-- The format of each row (R64). -/
def Mnemonic.format : Mnemonic → Format
  | .enc => .fc
  | .dec | .crcFeed | .vfyFeed | .ftxByte | .frxByte => .fb
  | .crcInit | .crcTag | .vfyInit | .vfyEnd | .ftxBegin | .ftxEnd | .frxInit | .frxEnd | .frxStat => .f0

/-- The unit of each row (R64). -/
def Mnemonic.unit : Mnemonic → BlockUnit
  | .enc | .dec => .codec
  | .crcInit | .crcFeed | .crcTag => .generator
  | .vfyInit | .vfyFeed | .vfyEnd => .checker
  | .ftxBegin | .ftxByte | .ftxEnd => .transmitter
  | .frxInit | .frxByte | .frxEnd | .frxStat => .receiver

/-- The unit that executes a command. -/
def Instr.unit (i : Instr) : BlockUnit := i.mnemonic.unit

/-- An operand as the assembler reads it (R70), of any size. -/
inductive SourceOperand
  | none
  | byte (value : Nat)
  | codePoint (value : Nat)
  deriving DecidableEq, Repr

/-- A line of assembler source before its operand is checked (R70). -/
structure SourceCommand where
  mnemonic : Mnemonic
  operand : SourceOperand
  deriving DecidableEq, Repr

end Sys2Proof
end

