-- ==== Sys2Proof/WellFormed.lean ====
section
/-! DEFINITION. Which terms are commands. The operand types of `Instr` have exactly the width of their fields, so every
`Instr` fits its format; the terms that can be ill formed are the assembler's source commands (30_encoding.md R70: "It refuses
an operand that does not fit its field"). -/

namespace Sys2Proof

/-- Width in bits of a format's operand field (R61 to R63). -/
def Format.operandBits : Format → Nat
  | .f0 => 0
  | .fb => 8
  | .fc => 21

/-- The operand of a command as a number, 0 where it has none. -/
def Instr.operandValue : Instr → Nat
  | .enc cp => cp.toNat
  | .dec b | .crcFeed b | .vfyFeed b | .ftxByte b | .frxByte b => b.toNat
  | .crcInit | .crcTag | .vfyInit | .vfyEnd | .ftxBegin | .ftxEnd | .frxInit | .frxEnd | .frxStat => 0

/-- The operand fits the format's field (R61 to R63). -/
def Instr.wellFormed (i : Instr) : Bool :=
  decide (i.operandValue < 2 ^ i.mnemonic.format.operandBits)

/-- The operand is of the kind the format takes (R70: none for F0, a byte for FB, a code point for ENC). -/
def SourceCommand.operandKindOk (c : SourceCommand) : Bool :=
  match c.mnemonic.format, c.operand with
  | .f0, .none => true
  | .fb, .byte _ => true
  | .fc, .codePoint _ => true
  | _, _ => false

/-- The operand fits its field (R70: at most 0xFF for a byte, at most 0x1FFFFF for a code point). -/
def SourceCommand.operandFits (c : SourceCommand) : Bool :=
  match c.operand with
  | .none => true
  | .byte v => decide (v < 2 ^ Format.fb.operandBits)
  | .codePoint v => decide (v < 2 ^ Format.fc.operandBits)

/-- A source command the assembler takes (R70). -/
def SourceCommand.wellFormed (c : SourceCommand) : Bool := c.operandKindOk && c.operandFits

end Sys2Proof
end

