-- ==== Sys2Proof/Decode.lean ====
section
/-! DEFINITION. Decoding a command word (30_encoding.md R60 to R65, R72) and encoding a command, both from the opcode map of
R64. Decoding is total and rejects by name; both names are the spec's one ILLEGAL (R72). `opcodeTable` repeats the match and
mask columns of spec/opcode_table.json, so that `legalWord` states R65 without the decoder. -/

namespace Sys2Proof

/-- Every mnemonic, in the order of R64. -/
def Mnemonic.all : List Mnemonic :=
  [.enc, .dec, .crcInit, .crcFeed, .crcTag, .vfyInit, .vfyFeed, .vfyEnd,
   .ftxBegin, .ftxByte, .ftxEnd, .frxInit, .frxByte, .frxEnd, .frxStat]

/-- The opcode map of R64. -/
def Mnemonic.opcode : Mnemonic → BitVec 8
  | .enc => 0x10
  | .dec => 0x11
  | .crcInit => 0x20
  | .crcFeed => 0x21
  | .crcTag => 0x22
  | .vfyInit => 0x30
  | .vfyFeed => 0x31
  | .vfyEnd => 0x32
  | .ftxBegin => 0x40
  | .ftxByte => 0x41
  | .ftxEnd => 0x42
  | .frxInit => 0x50
  | .frxByte => 0x51
  | .frxEnd => 0x52
  | .frxStat => 0x53

/-- `w[31:24]` (R60). -/
def opField (w : Word) : BitVec 8 := w.extractLsb' 24 8

/-- `b = w[7:0]` (R62). -/
def byteField (w : Word) : Byte := w.extractLsb' 0 8

/-- `cp = w[20:0]` (R63). -/
def codePointField (w : Word) : CodePoint := w.extractLsb' 0 21

/-- The must-be-zero bits of a format are zero: `w[23:0]` (R61), `w[23:8]` (R62), `w[23:21]` (R63). -/
def Format.reservedBitsZero (f : Format) (w : Word) : Bool :=
  match f with
  | .f0 => w.extractLsb' 0 24 == 0
  | .fb => w.extractLsb' 8 16 == 0
  | .fc => w.extractLsb' 21 3 == 0

/-- The mnemonic an opcode is assigned to, none for an unassigned opcode (R65). -/
def mnemonicOf (op : BitVec 8) : Option Mnemonic := Mnemonic.all.find? fun m => m.opcode == op

/-- The command a mnemonic makes of the operand fields of `w` (R61 to R64). -/
def Mnemonic.readOperand (m : Mnemonic) (w : Word) : Instr :=
  match m with
  | .enc => .enc (codePointField w)
  | .dec => .dec (byteField w)
  | .crcInit => .crcInit
  | .crcFeed => .crcFeed (byteField w)
  | .crcTag => .crcTag
  | .vfyInit => .vfyInit
  | .vfyFeed => .vfyFeed (byteField w)
  | .vfyEnd => .vfyEnd
  | .ftxBegin => .ftxBegin
  | .ftxByte => .ftxByte (byteField w)
  | .ftxEnd => .ftxEnd
  | .frxInit => .frxInit
  | .frxByte => .frxByte (byteField w)
  | .frxEnd => .frxEnd
  | .frxStat => .frxStat

/-- Why a word spells no command (R65; log 12). -/
inductive DecodeError
  /-- `op` is not in the table of R64. -/
  | unassignedOpcode (op : BitVec 8)
  /-- A must-be-zero bit of the format is 1. -/
  | reservedBitSet (m : Mnemonic)
  deriving DecidableEq, Repr

/-- The decode procedure of R72. -/
def decode (w : Word) : Except DecodeError Instr :=
  match mnemonicOf (opField w) with
  | none => .error (.unassignedOpcode (opField w))
  | some m => if m.format.reservedBitsZero w then .ok (m.readOperand w) else .error (.reservedBitSet m)

/-- The operand area of a command's word (R61 to R63). -/
def Instr.operandArea : Instr → Word
  | .enc cp => cp.setWidth 32
  | .dec b | .crcFeed b | .vfyFeed b | .ftxByte b | .frxByte b => b.setWidth 32
  | .crcInit | .crcTag | .vfyInit | .vfyEnd | .ftxBegin | .ftxEnd | .frxInit | .frxEnd | .frxStat => 0

/-- The word of a command: `op` in [31:24] (R60) over its operand area. -/
def encode (i : Instr) : Word := (i.mnemonic.opcode.setWidth 32 <<< 24) ||| i.operandArea

/-- A row of spec/opcode_table.json: a word is of the row when its bits under `mask` are `pattern`. -/
structure OpcodeRow where
  mnemonic : Mnemonic
  pattern : Word
  mask : Word
  deriving DecidableEq, Repr

/-- `w` is a word of the row. -/
def OpcodeRow.covers (r : OpcodeRow) (w : Word) : Bool := w &&& r.mask == r.pattern

/-- The match and mask columns of spec/opcode_table.json. -/
def opcodeTable : List OpcodeRow :=
  [⟨.enc, 0x10000000, 0xFFE00000⟩,
   ⟨.dec, 0x11000000, 0xFFFFFF00⟩,
   ⟨.crcInit, 0x20000000, 0xFFFFFFFF⟩,
   ⟨.crcFeed, 0x21000000, 0xFFFFFF00⟩,
   ⟨.crcTag, 0x22000000, 0xFFFFFFFF⟩,
   ⟨.vfyInit, 0x30000000, 0xFFFFFFFF⟩,
   ⟨.vfyFeed, 0x31000000, 0xFFFFFF00⟩,
   ⟨.vfyEnd, 0x32000000, 0xFFFFFFFF⟩,
   ⟨.ftxBegin, 0x40000000, 0xFFFFFFFF⟩,
   ⟨.ftxByte, 0x41000000, 0xFFFFFF00⟩,
   ⟨.ftxEnd, 0x42000000, 0xFFFFFFFF⟩,
   ⟨.frxInit, 0x50000000, 0xFFFFFFFF⟩,
   ⟨.frxByte, 0x51000000, 0xFFFFFF00⟩,
   ⟨.frxEnd, 0x52000000, 0xFFFFFFFF⟩,
   ⟨.frxStat, 0x53000000, 0xFFFFFFFF⟩]

/-- The word is of some row of the opcode table: the words that are not illegal under R65. -/
def legalWord (w : Word) : Bool := opcodeTable.any fun r => r.covers w

/-- The command word that `nbits` bits of `w` spell (R60: every command is one 32-bit word; log 8). -/
def tableWord (nbits w : Nat) : Word := BitVec.ofNat 32 (w % 2 ^ nbits)

/-- The command the decoder reads from the opcode table's `nbits` bits `w`. -/
def decodeTableWord (nbits w : Nat) : Option Instr := (decode (tableWord nbits w)).toOption

end Sys2Proof
end

