-- ==== Sys2Proof/Machine/State.lean ====
section
/-! DEFINITION. The state of the machine as plain data: the seven architectural registers (10_state.md R23) and the command
port between the block and its host (00_scope.md R5, 30_encoding.md R66; log 1), with the state after reset
(70_reset_and_hazards.md R181). -/

namespace Sys2Proof.Machine

/-- The receiver state `rxs`, 3 bits (R28). Codes 5 and 6 are not legal and have no constructor (I7; log 6). -/
inductive RxState
  /-- Code 0: expecting the first envelope byte DLE. -/
  | start
  /-- Code 1: DLE seen, expecting STX. -/
  | hdr
  /-- Code 2: inside the payload, the last byte was not an unpaired DLE. -/
  | data
  /-- Code 3: inside the payload, an unpaired DLE was just seen. -/
  | esc
  /-- Code 4: DLE ETX seen, the frame is complete. -/
  | done
  /-- Code 7: the frame is malformed, `rxwhy` holds the reason. -/
  | error
  deriving DecidableEq, Repr

/-- The latched reason `rxwhy`, 4 bits (R29). The other codes are not legal and have no constructor (I8; log 6). -/
inductive RxWhy
  /-- Code 0: no error latched. -/
  | none
  /-- Code 2. -/
  | noDle
  /-- Code 3. -/
  | noStx
  /-- Code 4. -/
  | badEscape
  /-- Code 5. -/
  | trailing
  deriving DecidableEq, Repr

/-- The reasons of a PROTOCOL_ERROR (R163). -/
inductive Reason
  | short | noDle | noStx | badEscape | trailing | truncated
  deriving DecidableEq, Repr

/-- The status of a response (R67). Codes 0x05 to 0xFF are never returned and have no constructor (I9; log 6). -/
inductive Status
  | ok | protocolError | checksumError | validationError | illegalCommand
  deriving DecidableEq, Repr

/-- The response `(status, value, out)` of one command (R66). -/
structure Response where
  status : Status
  value : Word
  out : List Byte
  deriving DecidableEq, Repr

/-- The architectural state: exactly the seven registers of R23. -/
structure Registers where
  /-- The generator's running CRC, in reflected form (R24). -/
  crc : Crc16
  /-- The checker's running CRC: every byte fed but the two held (R25). -/
  vcrc : Crc16
  /-- The older held byte (R26). -/
  vhold0 : Byte
  /-- The newer held byte (R26). -/
  vhold1 : Byte
  /-- How many held bytes are meaningful, saturating at 2 (R27; value 3 is not legal, I6; log 6). -/
  vcnt : Fin 3
  /-- The receiver state (R28). -/
  rxs : RxState
  /-- The latched PROTOCOL_ERROR reason (R29). -/
  rxwhy : RxWhy
  deriving DecidableEq, Repr

/-- What the host can do to the block: issue a command word (R60), read the response that waits for it, assert the reset
input (R180). Log 1. -/
inductive HostEvent
  | command (w : Word)
  | readResponse
  | reset
  deriving DecidableEq, Repr

/-- The machine: the architectural registers, and the command port (log 1), which belongs to the model because a step takes
no argument and returns no response. -/
structure State where
  /-- The seven registers of R23. -/
  regs : Registers
  /-- The host's events still to come, oldest first. -/
  pending : List HostEvent
  /-- The response of the last command, while the host has not read it (R66, R180). -/
  response : Option Response
  /-- The responses the host has read, oldest first (the observation of R194). -/
  heard : List Response
  deriving DecidableEq, Repr

/-- The machine never stops: every error is an ordinary response (R160, R168) and the step is total (R5). So no one raises
a fault and the type has no constructor. -/
inductive Fault
  deriving DecidableEq, Repr

/-- Why an instruction has no meaning. -/
inductive Refusal
  /-- Raised by no one: every row of the opcode table has its meaning. Would be safe (the machine stops). -/
  | notModelled (mnemonic : String)
  deriving DecidableEq, Repr

/-- The reset value of every register (R181). -/
def Registers.reset : Registers where
  crc := 0xFFFF
  vcrc := 0xFFFF
  vhold0 := 0x00
  vhold1 := 0x00
  vcnt := 0
  rxs := .start
  rxwhy := .none

/-- The machine right after reset: R181, and a port on which nothing has happened (log 2). -/
def State.reset : State where
  regs := Registers.reset
  pending := []
  response := none
  heard := []

end Sys2Proof.Machine
end

