-- ==== Sys2Proof/Machine/Operands.lean ====
section
/-! DEFINITION. Bit fields of operands and of response values: bytes of a 16-bit value (00_scope.md R7, 20_memory.md R42),
the packing of response values (20_memory.md R45), and the numeric codes of the named states, statuses and reasons
(10_state.md R28, R29; 30_encoding.md R67; 60_exceptions.md R163). -/

namespace Sys2Proof.Machine

/-- The low byte `v[7:0]` (R7). -/
def lowByte (v : Crc16) : Byte := v.extractLsb' 0 8

/-- The high byte `v[15:8]` (R7). -/
def highByte (v : Crc16) : Byte := v.extractLsb' 8 8

/-- The two tag bytes of a checksum value, low byte first (R42). -/
def tagBytes (v : Crc16) : List Byte := [lowByte v, highByte v]

/-- The 16-bit value whose tag bytes are `first` and `second`: `zext_16(first) OR (zext_16(second) << 8)` (R113, R45). -/
def tagOfBytes (first second : Byte) : Crc16 := first.setWidth 16 ||| (second.setWidth 16 <<< 8)

/-- `zext_32(recv) OR (zext_32(exp) << 16)` (R113, R165). -/
def tagPairValue (recv exp : Crc16) : Word := recv.setWidth 32 ||| (exp.setWidth 32 <<< 16)

/-- The code of a receiver state (R28). -/
def RxState.code : RxState → BitVec 3
  | .start => 0
  | .hdr => 1
  | .data => 2
  | .esc => 3
  | .done => 4
  | .error => 7

/-- The code of a latched reason (R29, R163). -/
def RxWhy.code : RxWhy → BitVec 4
  | .none => 0
  | .noDle => 2
  | .noStx => 3
  | .badEscape => 4
  | .trailing => 5

/-- The code of a PROTOCOL_ERROR reason (R163). -/
def Reason.code : Reason → BitVec 8
  | .short => 0x01
  | .noDle => 0x02
  | .noStx => 0x03
  | .badEscape => 0x04
  | .trailing => 0x05
  | .truncated => 0x06

/-- The code of a response status (R67). -/
def Status.code : Status → BitVec 8
  | .ok => 0x00
  | .protocolError => 0x01
  | .checksumError => 0x02
  | .validationError => 0x03
  | .illegalCommand => 0x04

/-- `zext_32(rxs) OR (zext_32(rxwhy) << 4)` (R141). -/
def receiverStatusValue (s : RxState) (why : RxWhy) : Word :=
  s.code.setWidth 32 ||| (why.code.setWidth 32 <<< 4)

end Sys2Proof.Machine
end

