-- ==== Sys2Proof/Machine/Flags.lean ====
section
/-! DEFINITION. The block has no flags (10_state.md R22): no command leaves a condition for a later one. What stands here is
the two conditions that VFY_END computes and reports at once (41_crc.md R113). -/

namespace Sys2Proof.Machine

/-- `short`: fewer than two bytes were fed since the checker was armed (R113). -/
def checkerShort (r : Registers) : Bool := decide (r.vcnt < 2)

/-- `recv`: the received tag, first byte low (R113). -/
def receivedTag (r : Registers) : Crc16 := tagOfBytes r.vhold0 r.vhold1

/-- `exp`: the expected tag value (R113). -/
def expectedTag (r : Registers) : Crc16 := r.vcrc ^^^ 0xFFFF

/-- `recv != exp` (R113). -/
def tagMismatch (r : Registers) : Bool := receivedTag r != expectedTag r

end Sys2Proof.Machine
end

