-- ==== Sys2Proof/Config.lean ====
section
/-! DEFINITION. What an implementation fixes and the spec leaves open (00_scope.md R6): the codec ROM `CHAR_ROM` with its
two smaller parameters `ONE_EIGHTH_CP` and `PUNCT_SET`, the permitted set P (40_codec.md R80 to R83), the properties ROM-1 to
ROM-8 (R86) and the reference ROM of the test vectors (R87). `Config.charRom` is opaque: nothing here or later can
evaluate it, so a claim about it holds of every ROM the spec admits (log 3). -/

namespace Sys2Proof

/-- `count` code points from `first` upward. -/
def codePointRange (first count : Nat) : List CodePoint :=
  (List.range count).map fun k => BitVec.ofNat 21 (first + k)

/-- `LETTERS` of R80: U+0041 to U+005A and U+0061 to U+007A. -/
def letters : List CodePoint := codePointRange 0x41 26 ++ codePointRange 0x61 26

/-- `DIGITS` of R80: U+0030 to U+0039. -/
def digits : List CodePoint := codePointRange 0x30 10

/-- U+0020 (R80). -/
def space : CodePoint := 0x20

/-- The 20 punctuation characters of R81, the default `PUNCT_SET`. -/
def defaultPunct : List CodePoint :=
  [0x21, 0x23, 0x24, 0x26, 0x27, 0x28, 0x29, 0x2A, 0x2B, 0x2C,
   0x2D, 0x2E, 0x2F, 0x3A, 0x3B, 0x3C, 0x3D, 0x3E, 0x3F, 0x5C]

/-- The ten ASCII punctuation characters the source excludes (R81). -/
def excludedPunct : List CodePoint :=
  [0x22, 0x25, 0x40, 0x5B, 0x5D, 0x5E, 0x60, 0x7B, 0x7C, 0x7D]

/-- The two structural markers `~` and `_` (R83). -/
def structuralMarkers : List CodePoint := [0x7E, 0x5F]

/-- The code point of `'` (R86 ROM-4, R81). -/
def apostrophe : CodePoint := 0x27

/-- The Unicode replacement character U+FFFD (R11, R85). -/
def replacementChar : CodePoint := 0xFFFD

/-- The four candidates of the OPEN parameter `ONE_EIGHTH_CP` (R6, R82). -/
inductive OneEighth
  | lower | upper | left | right
  deriving DecidableEq, Repr

/-- The code point of each one-eighth block (R82). -/
def OneEighth.codePoint : OneEighth → CodePoint
  | .lower => 0x2581
  | .upper => 0x2594
  | .left => 0x258F
  | .right => 0x2595

/-- The codec parameters of R6: which of the 20 punctuation characters are permitted (`PUNCT_SET`, any subset, R81), the
one-eighth block (`ONE_EIGHTH_CP`, R82) and the two ROM maps (`ENC_ROM` partial R84, `DEC_ROM` total R85). -/
structure CharRom where
  keepsPunct : CodePoint → Bool
  oneEighth : OneEighth
  enc : CodePoint → Option Byte
  dec : Byte → CodePoint

/-- `PUNCT_SET`: a subset of the 20 characters of R81, with `'` in it under every admissible ROM (log 11). -/
def CharRom.punctSet (r : CharRom) : List CodePoint := defaultPunct.filter r.keepsPunct

/-- `EXT`: the six extension characters of R82. -/
def CharRom.extension (r : CharRom) : List CodePoint :=
  [0xB7, 0x2022, 0x2500, 0x2501, 0x2588, r.oneEighth.codePoint]

/-- The permitted set `P = LETTERS ∪ DIGITS ∪ {U+0020} ∪ PUNCT_SET ∪ EXT` (R80), each character once. -/
def CharRom.permitted (r : CharRom) : List CodePoint :=
  letters ++ digits ++ [space] ++ r.punctSet ++ r.extension

/-- The 256 addresses of the decode space (R41(b)), in order. -/
def allBytes : List Byte := (List.range 256).map (BitVec.ofNat 8)

/-- How many bytes decode to `c`. -/
def CharRom.decodings (r : CharRom) (c : CodePoint) : Nat := allBytes.countP fun b => r.dec b == c

/-- The properties ROM-1 to ROM-8 of R86, which every admitted `CHAR_ROM` has. -/
structure CharRom.Admissible (r : CharRom) : Prop where
  /-- ROM-1: `dom(ENC_ROM) = P`. -/
  rom1 : ∀ c, (r.enc c).isSome = true ↔ c ∈ r.permitted
  /-- ROM-2: `DEC_ROM(ENC_ROM(c)) = c` for every `c ∈ P`. -/
  rom2 : ∀ c b, r.enc c = some b → r.dec b = c
  /-- ROM-3: every byte decodes into `P ∪ {U+FFFD}`. -/
  rom3 : ∀ b, r.dec b ∈ r.permitted ∨ r.dec b = replacementChar
  /-- ROM-4: exactly two bytes decode to `'`. -/
  rom4 : r.decodings apostrophe = 2
  /-- ROM-5: exactly three bytes decode to `ONE_EIGHTH_CP`. -/
  rom5 : r.decodings r.oneEighth.codePoint = 3
  /-- ROM-6: every other character of `P` is the decoding of exactly one byte. -/
  rom6 : ∀ c ∈ r.permitted, c ≠ apostrophe → c ≠ r.oneEighth.codePoint → r.decodings c = 1
  /-- ROM-7: `DEC_ROM(0xFF) = U+FFFD`. -/
  rom7 : r.dec 0xFF = replacementChar
  /-- ROM-8: no character of `P` encodes to 0x0A or 0x0D. -/
  rom8 : ∀ c b, r.enc c = some b → b ≠ 0x0A ∧ b ≠ 0x0D

/-- A `CHAR_ROM` the spec admits (R86): the parameter paired with its properties. -/
abbrev AdmissibleRom := { r : CharRom // r.Admissible }

/-- The ASCII characters of `P` under the default `PUNCT_SET`. -/
def refAscii : List CodePoint := letters ++ digits ++ [space] ++ defaultPunct

/-- `ENC_REF` of R87. -/
def refEnc (c : CodePoint) : Option Byte :=
  if c ∈ refAscii then some (c.setWidth 8)
  else if c = 0xB7 then some 0x80
  else if c = 0x2022 then some 0x81
  else if c = 0x2500 then some 0x82
  else if c = 0x2501 then some 0x83
  else if c = 0x2588 then some 0x84
  else if c = 0x2581 then some 0x85
  else none

/-- `DEC_REF` of R87. -/
def refDec (b : Byte) : CodePoint :=
  if b.setWidth 21 ∈ refAscii then b.setWidth 21
  else if b = 0x22 then apostrophe
  else if b = 0x80 then 0xB7
  else if b = 0x81 then 0x2022
  else if b = 0x82 then 0x2500
  else if b = 0x83 then 0x2501
  else if b = 0x84 then 0x2588
  else if b = 0x85 ∨ b = 0x86 ∨ b = 0x87 then 0x2581
  else replacementChar

/-- `ROM_REF` of R87: for the spec's test vectors only, never the block's own ROM. -/
def romRef : CharRom where
  keepsPunct := fun _ => true
  oneEighth := .lower
  enc := refEnc
  dec := refDec

/-- The permitted set of `ROM_REF` is the ASCII part and the six extension characters. -/
theorem romRef_permitted :
    romRef.permitted = refAscii ++ [0xB7, 0x2022, 0x2500, 0x2501, 0x2588, 0x2581] := by
  decide +kernel

theorem refEnc_isSome (c : CodePoint) :
    (refEnc c).isSome = true ↔ c ∈ refAscii ++ [0xB7, 0x2022, 0x2500, 0x2501, 0x2588, 0x2581] := by
  simp only [refEnc, List.mem_append, List.mem_cons, List.not_mem_nil, or_false]
  split_ifs <;> simp_all

/-- What holds of each character of the reference set and its byte holds of whatever `ENC_REF` answers. -/
theorem refEnc_all (p : CodePoint → Byte → Bool)
    (h : ((refAscii ++ [0xB7, 0x2022, 0x2500, 0x2501, 0x2588, 0x2581]).all
      fun c => (refEnc c).all (p c)) = true) {c : CodePoint} {b : Byte} (hb : refEnc c = some b) :
    p c b = true := by
  have hc := (refEnc_isSome c).1 (by rw [hb]; rfl)
  have := List.all_eq_true.1 h c hc
  rw [hb] at this
  exact this

/-- R87: `ROM_REF` satisfies ROM-1 to ROM-8, so an admissible ROM exists. -/
theorem romRef_admissible : romRef.Admissible where
  rom1 c := by rw [romRef_permitted]; exact refEnc_isSome c
  rom2 c b h := by
    change refDec b = c
    simpa using refEnc_all (fun c b => refDec b == c) (by decide +kernel) h
  rom3 b := by
    have h : ∀ b : Byte, refDec b ∈ romRef.permitted ∨ refDec b = replacementChar := by decide +kernel
    exact h b
  rom4 := by decide +kernel
  rom5 := by decide +kernel
  rom6 := by
    have h : (romRef.permitted.all fun c => c == apostrophe || c == romRef.oneEighth.codePoint
        || romRef.decodings c == 1) = true := by decide +kernel
    intro c hc h1 h2
    have := List.all_eq_true.1 h c hc
    simp_all
  rom7 := by decide +kernel
  rom8 c b h := by
    simpa using refEnc_all (fun _ b => b != 0x0A && b != 0x0D) (by decide +kernel) h

/-- The implementation's ROM as an uninterpreted constant of the admissible ROMs. The argument says only that there is one
(R87), it does not say which is meant. -/
opaque Config.romAmong [Inhabited AdmissibleRom] : AdmissibleRom

/-- The ROM fixed when the block is built (R30, R184(a)): some admissible ROM, never known (log 3). -/
def Config.charRom : AdmissibleRom := @Config.romAmong ⟨⟨romRef, romRef_admissible⟩⟩

end Sys2Proof
end

