-- ==== Sys2Proof/Machine/Errors.lean ====
section
/-! DEFINITION. How the whole-buffer functions fail (00_scope.md R9): the source's typed errors (60_exceptions.md R161). -/

namespace Sys2Proof.Machine

/-- The typed errors of the source that a unit in scope raises (R161). -/
inductive BufferError
  /-- `ProtocolError`, with the reason that R163 gives its cause. -/
  | protocol (reason : Reason)
  /-- `ChecksumError`, reporting the received and the expected tag (R104). -/
  | checksum (received expected : List Byte)
  /-- `ValidationError`, listing the offending characters and the permitted set (R88). -/
  | validation (bad permitted : List CodePoint)
  deriving DecidableEq, Repr

/-- The block status that stands for a source error (R161, R67). -/
def BufferError.status : BufferError → Status
  | .protocol _ => .protocolError
  | .checksum _ _ => .checksumError
  | .validation _ _ => .validationError

end Sys2Proof.Machine
end

