-- ==== Sys2Proof/Machine/Checksum.lean ====
section
/-! DEFINITION. CRC-16/X.25 as functions over byte sequences (41_crc.md R100 to R104): the reflected register form the block
computes, the parametric definition of R102, the tag and its verification. -/

namespace Sys2Proof.Machine

/-- The initial value 0xFFFF (R100). -/
abbrev crcInitial : Crc16 := 0xFFFF

/-- One of the eight shifts of `crc_step` (R101): right shift, and XOR 0x8408 when the bit shifted out is 1. -/
def crcShift (c : Crc16) : Crc16 := if c.getLsbD 0 then (c >>> 1) ^^^ 0x8408 else c >>> 1

/-- `n` shifts (R101: "repeat 8 times"). -/
def crcShifts : Nat → Crc16 → Crc16
  | 0, c => c
  | n + 1, c => crcShifts n (crcShift c)

/-- `crc_step` (R101). -/
def crcStep (c : Crc16) (b : Byte) : Crc16 := crcShifts 8 (c ^^^ b.setWidth 16)

/-- `crc_reg` (R101): `crc_step` folded over a byte sequence. -/
def crcReg (c : Crc16) (bs : List Byte) : Crc16 := bs.foldl crcStep c

/-- `crc16_x25` (R103). -/
def crc16X25 (bs : List Byte) : Crc16 := crcReg crcInitial bs ^^^ 0xFFFF

/-- `checksum`: the 2-byte tag (R103). -/
def checksum (bs : List Byte) : List Byte := tagBytes (crc16X25 bs)

/-- `verify` (R104). -/
def verify (x : List Byte) : Except BufferError (List Byte) :=
  if x.length < 2 then .error (.protocol .short)
  else
    let p := x.take (x.length - 2)
    let t := x.drop (x.length - 2)
    if t ≠ checksum p then .error (.checksum t (checksum p)) else .ok p

/-- One shift of `crc_param` (R102): left, and XOR 0x1021 when the bit shifted out is 1. -/
def crcParamShift (r : Crc16) : Crc16 := if r.getLsbD 15 then (r <<< 1) ^^^ 0x1021 else r <<< 1

/-- `n` shifts of `crc_param` (R102). -/
def crcParamShifts : Nat → Crc16 → Crc16
  | 0, r => r
  | n + 1, r => crcParamShifts n (crcParamShift r)

/-- The body of `crc_param`'s loop over the bytes (R102): the byte reversed enters at the top. -/
def crcParamStep (r : Crc16) (b : Byte) : Crc16 :=
  crcParamShifts 8 (r ^^^ (b.reverse.setWidth 16 <<< 8))

/-- `crc_param`, the CRC from the parameters of R100 (R102). -/
def crcParam (bs : List Byte) : Crc16 := (bs.foldl crcParamStep crcInitial).reverse ^^^ 0xFFFF

end Sys2Proof.Machine
end

