-- ==== Sys2Proof/Machine/Framing.lean ====
section
/-! DEFINITION. The frame as functions over byte sequences (42_framer.md R130 to R132, R144). -/

namespace Sys2Proof.Machine

/-- The control byte DLE (R130). -/
abbrev dle : Byte := 0x10

/-- The control byte STX (R130). -/
abbrev stx : Byte := 0x02

/-- The control byte ETX (R130). -/
abbrev etx : Byte := 0x03

/-- The codeword of one payload byte: DLE is doubled, every other byte stands for itself (R131). -/
def stuffByte (b : Byte) : List Byte := if b = dle then [dle, dle] else [b]

/-- `stuff` (R131). -/
def stuff : List Byte → List Byte
  | [] => []
  | b :: r => stuffByte b ++ stuff r

/-- `frame` (R131). -/
def frame (p : List Byte) : List Byte := [dle, stx] ++ stuff p ++ [dle, etx]

/-- The payload of what follows the opening envelope. `escaped` says that an unpaired DLE was just read (R133). The reasons are
those of R163 (log 9). -/
def unstuff (escaped : Bool) : List Byte → Except BufferError (List Byte)
  | [] => .error (.protocol .truncated)
  | b :: r =>
    if escaped then
      if b = dle then (unstuff false r).map (dle :: ·)
      else if b = etx then if r = [] then .ok [] else .error (.protocol .trailing)
      else .error (.protocol .badEscape)
    else if b = dle then unstuff true r
    else (unstuff false r).map (b :: ·)

/-- `deframe`, the partial inverse of `frame` (R132). Which reason a malformed sequence gets is the receiver's (R143; log 9). -/
def deframe : List Byte → Except BufferError (List Byte)
  | [] => .error (.protocol .truncated)
  | b0 :: r0 =>
    if b0 = dle then
      match r0 with
      | [] => .error (.protocol .truncated)
      | b1 :: r => if b1 = stx then unstuff false r else .error (.protocol .noStx)
    else .error (.protocol .noDle)

/-- `packet(p) = frame(p ++ checksum(p))` (R144). -/
def packet (p : List Byte) : List Byte := frame (p ++ checksum p)

/-- `unpacket(y) = verify(deframe(y))`, failing where either step fails (R144). -/
def unpacket (y : List Byte) : Except BufferError (List Byte) := (deframe y).bind verify

end Sys2Proof.Machine
end

