-- ==== Sys2Proof/Machine/Text.lean ====
section
/-! DEFINITION. The codec ROM's two read ports (00_scope.md R8, 40_codec.md R84, R85) and the whole-sequence codec functions
(R88, R89) with the canonical bytes of R90, each over the ROM as an argument. -/

namespace Sys2Proof.Machine

/-- `RomEnc(cp)`: `ENC_ROM(cp)`, or none for `NONE` (R84). -/
def romEnc (rom : CharRom) (cp : CodePoint) : Option Byte := rom.enc cp

/-- `RomDec(b)`: `DEC_ROM(b)` (R85). -/
def romDec (rom : CharRom) (b : Byte) : CodePoint := rom.dec b

/-- Each element once, in the order of first occurrence (R88, D19). -/
def firstOccurrences : List CodePoint → List CodePoint
  | [] => []
  | c :: cs => c :: (firstOccurrences cs).filter (· ≠ c)

/-- The offending characters of `s` in order of first occurrence (R88). -/
def offending (rom : CharRom) (s : List CodePoint) : List CodePoint :=
  firstOccurrences (s.filter (· ∉ rom.permitted))

/-- `encode_text` (R88). -/
def encodeText (rom : CharRom) (s : List CodePoint) : Except BufferError (List Byte) :=
  if offending rom s = [] then .ok (s.filterMap (romEnc rom))
  else .error (.validation (offending rom s) rom.permitted)

/-- `decode_bytes` (R89). -/
def decodeBytes (rom : CharRom) (bs : List Byte) : List CodePoint := bs.map (romDec rom)

/-- A canonical byte (R90(b)): it decodes into `P`, and what it decodes to encodes to it. -/
def canonicalByte (rom : CharRom) (b : Byte) : Prop :=
  romDec rom b ∈ rom.permitted ∧ romEnc rom (romDec rom b) = some b

end Sys2Proof.Machine
end

