-- ==== Sys2Proof/Machine/Ops.lean ====
section
/-! DEFINITION. The named operations the meanings are made of: the responses (00_scope.md R8), reporting an error as the one
shared operation (60_exceptions.md R160), re-arming a unit, committing a command's result, and what the port does on each host
event (00_scope.md R5, 70_reset_and_hazards.md R180). -/

namespace Sys2Proof.Machine

/-- `respond(OK, value)` after the emitted bytes `out` (R8). -/
def Response.okWith (value : Word) (out : List Byte) : Response := ⟨.ok, value, out⟩

/-- `raise <Error>(value)` (R8): the error is reported in the response of the command that detects it, with no out bytes
(R160, R165). There is no trap entry and nothing to return from (R168, R169). -/
def Response.raise (error : Status) (value : Word) : Response := ⟨error, value, []⟩

/-- `raise PROTOCOL_ERROR(reason)`: the value is `zext_32(reason)` (R165). -/
def Response.raiseProtocol (reason : Reason) : Response := .raise .protocolError (reason.code.setWidth 32)

/-- `raise PROTOCOL_ERROR(zext_32(rxwhy))` (R139, R140). -/
def Response.raiseLatched (why : RxWhy) : Response := .raise .protocolError (why.code.setWidth 32)

/-- The generator as CRC_INIT leaves it (R108). -/
def Registers.armGenerator (r : Registers) : Registers := { r with crc := crcInitial }

/-- The checker as VFY_INIT and VFY_END leave it (R111, R113). -/
def Registers.armChecker (r : Registers) : Registers :=
  { r with vcrc := crcInitial, vhold0 := 0x00, vhold1 := 0x00, vcnt := 0 }

/-- The receiver as FRX_INIT and FRX_END leave it (R138, R140). -/
def Registers.armReceiver (r : Registers) : Registers := { r with rxs := .start, rxwhy := .none }

/-- The receiver latches the first error of a frame and reports it (R139). -/
def Registers.latchError (r : Registers) (why : RxWhy) : Registers × Response :=
  ({ r with rxs := .error, rxwhy := why }, .raiseLatched why)

/-- The receiver goes to state `st` and emits `out` (R139). -/
def Registers.receiveTo (r : Registers) (st : RxState) (out : List Byte) : Registers × Response :=
  ({ r with rxs := st }, .okWith 0 out)

/-- A command's new registers and its response take effect together (R47). -/
def State.commit (s : State) (result : Registers × Response) : State :=
  { s with regs := result.1, response := some result.2 }

/-- Every response the block has returned and the host can observe, oldest first (R194). -/
def State.observed (s : State) : List Response := s.heard ++ s.response.toList

/-- The host reads the response that waits for it (log 4). -/
def State.hearResponse (s : State) : State := { s with heard := s.observed, response := none }

/-- The host issues the next command: the response of the one before has reached it (R5, R50; log 4). -/
def State.acceptCommand (s : State) (later : List HostEvent) : State :=
  { s.hearResponse with pending := later }

/-- The host reads the response, and issues nothing. -/
def State.acceptRead (s : State) (later : List HostEvent) : State :=
  { s.hearResponse with pending := later }

/-- Reset is taken between commands: every register gets its reset value, and a response not yet read is lost with its
command (R180, R181; log 5). -/
def State.acceptReset (s : State) (later : List HostEvent) : State :=
  { s with regs := Registers.reset, pending := later, response := none }

/-- An illegal word: ILLEGAL_COMMAND with value the word, and no register changes (R65, R164). -/
def illegalCommand (w : Word) (s : State) : Host.Outcome State Fault Refusal :=
  .next (s.commit (s.regs, .raise .illegalCommand w))

end Sys2Proof.Machine
end

