-- ==== Sys2Proof/Machine/Checker.lean ====
section
/-! DEFINITION. The CRCU checker commands VFY_INIT, VFY_FEED and VFY_END (41_crc.md R111 to R113). -/

namespace Sys2Proof.Machine

/-- `VFY_INIT` (R111). -/
def execVfyInit (s : State) : Host.Outcome State Fault Refusal :=
  .next (s.commit (s.regs.armChecker, .okWith 0 []))

/-- What `VFY_FEED b` does to the registers and answers (R112). -/
def vfyFeed (b : Byte) (r : Registers) : Registers × Response :=
  if r.vcnt = 0 then ({ r with vhold0 := b, vcnt := 1 }, .okWith 0 [])
  else if r.vcnt = 1 then ({ r with vhold1 := b, vcnt := 2 }, .okWith 0 [])
  else ({ r with vcrc := crcStep r.vcrc r.vhold0, vhold0 := r.vhold1, vhold1 := b }, .okWith 0 [r.vhold0])

/-- `VFY_FEED b` (R112). -/
def execVfyFeed (b : Byte) (s : State) : Host.Outcome State Fault Refusal :=
  .next (s.commit (vfyFeed b s.regs))

/-- The response of `VFY_END`, from the registers before they are re-armed (R113). -/
def vfyEndResponse (r : Registers) : Response :=
  if checkerShort r then .raiseProtocol .short
  else if tagMismatch r then .raise .checksumError (tagPairValue (receivedTag r) (expectedTag r))
  else .okWith (tagPairValue (receivedTag r) (expectedTag r)) []

/-- `VFY_END` (R113): the checker is re-armed in every case. -/
def execVfyEnd (s : State) : Host.Outcome State Fault Refusal :=
  .next (s.commit (s.regs.armChecker, vfyEndResponse s.regs))

end Sys2Proof.Machine
end

