-- ==== Sys2Proof/Machine/Codec.lean ====
section
/-! DEFINITION. The CODEC commands ENC and DEC (40_codec.md R91, R92). -/

namespace Sys2Proof.Machine

/-- The response of `ENC cp` under a ROM (R91). -/
def encResponse (rom : CharRom) (cp : CodePoint) : Response :=
  match romEnc rom cp with
  | none => .raise .validationError (cp.setWidth 32)
  | some b => .okWith 0 [b]

/-- `ENC cp` (R91): no state is written. -/
def execEnc (cp : CodePoint) (s : State) : Host.Outcome State Fault Refusal :=
  .next (s.commit (s.regs, encResponse Config.charRom.val cp))

/-- The response of `DEC b` under a ROM (R92). -/
def decResponse (rom : CharRom) (b : Byte) : Response := .okWith ((romDec rom b).setWidth 32) []

/-- `DEC b` (R92): no state is written. -/
def execDec (b : Byte) (s : State) : Host.Outcome State Fault Refusal :=
  .next (s.commit (s.regs, decResponse Config.charRom.val b))

end Sys2Proof.Machine
end

