-- ==== Sys2Proof/Machine/Generator.lean ====
section
/-! DEFINITION. The CRCU generator commands CRC_INIT, CRC_FEED and CRC_TAG (41_crc.md R108 to R110). -/

namespace Sys2Proof.Machine

/-- `CRC_INIT` (R108). -/
def execCrcInit (s : State) : Host.Outcome State Fault Refusal :=
  .next (s.commit (s.regs.armGenerator, .okWith 0 []))

/-- `CRC_FEED b` (R109). -/
def execCrcFeed (b : Byte) (s : State) : Host.Outcome State Fault Refusal :=
  .next (s.commit ({ s.regs with crc := crcStep s.regs.crc b }, .okWith 0 []))

/-- The response of `CRC_TAG` (R110). -/
def crcTagResponse (r : Registers) : Response :=
  let v := r.crc ^^^ 0xFFFF
  .okWith (v.setWidth 32) (tagBytes v)

/-- `CRC_TAG` (R110): `crc` keeps its value. -/
def execCrcTag (s : State) : Host.Outcome State Fault Refusal :=
  .next (s.commit (s.regs, crcTagResponse s.regs))

end Sys2Proof.Machine
end

