-- ==== Sys2Proof/Machine/Receiver.lean ====
section
/-! DEFINITION. The FRX commands FRX_INIT, FRX_BYTE, FRX_END and FRX_STAT (42_framer.md R138 to R141). -/

namespace Sys2Proof.Machine

/-- `FRX_INIT` (R138). -/
def execFrxInit (s : State) : Host.Outcome State Fault Refusal :=
  .next (s.commit (s.regs.armReceiver, .okWith 0 []))

/-- What `FRX_BYTE b` does to the registers and answers, by the receiver's state (R139). -/
def frxByte (b : Byte) (r : Registers) : Registers × Response :=
  match r.rxs with
  | .start => if b = dle then r.receiveTo .hdr [] else r.latchError .noDle
  | .hdr => if b = stx then r.receiveTo .data [] else r.latchError .noStx
  | .data => if b = dle then r.receiveTo .esc [] else r.receiveTo .data [b]
  | .esc =>
    if b = dle then r.receiveTo .data [dle]
    else if b = etx then r.receiveTo .done []
    else r.latchError .badEscape
  | .done => r.latchError .trailing
  | .error => (r, .raiseLatched r.rxwhy)

/-- `FRX_BYTE b` (R139). -/
def execFrxByte (b : Byte) (s : State) : Host.Outcome State Fault Refusal :=
  .next (s.commit (frxByte b s.regs))

/-- The response of `FRX_END`, from the registers before they are re-armed (R140). -/
def frxEndResponse (r : Registers) : Response :=
  match r.rxs with
  | .done => .okWith 0 []
  | .error => .raiseLatched r.rxwhy
  | .start | .hdr | .data | .esc => .raiseProtocol .truncated

/-- `FRX_END` (R140): the receiver is re-armed in every case. -/
def execFrxEnd (s : State) : Host.Outcome State Fault Refusal :=
  .next (s.commit (s.regs.armReceiver, frxEndResponse s.regs))

/-- `FRX_STAT` (R141): no state is written. -/
def execFrxStat (s : State) : Host.Outcome State Fault Refusal :=
  .next (s.commit (s.regs, .okWith (receiverStatusValue s.regs.rxs s.regs.rxwhy) []))

end Sys2Proof.Machine
end

