-- ==== Sys2Proof/Machine/Transmitter.lean ====
section
/-! DEFINITION. The FTX commands FTX_BEGIN, FTX_BYTE and FTX_END (42_framer.md R135 to R137). FTX has no state. -/

namespace Sys2Proof.Machine

/-- `FTX_BEGIN` (R135). -/
def execFtxBegin (s : State) : Host.Outcome State Fault Refusal :=
  .next (s.commit (s.regs, .okWith 0 [dle, stx]))

/-- `FTX_BYTE b` (R136). -/
def execFtxByte (b : Byte) (s : State) : Host.Outcome State Fault Refusal :=
  .next (s.commit (s.regs, .okWith 0 (stuffByte b)))

/-- `FTX_END` (R137). -/
def execFtxEnd (s : State) : Host.Outcome State Fault Refusal :=
  .next (s.commit (s.regs, .okWith 0 [dle, etx]))

end Sys2Proof.Machine
end

