-- ==== Sys2Proof/Machine/Dispatch.lean ====
section
/-! DEFINITION. One arm per command of the opcode map (30_encoding.md R64), each a call of its meaning. -/

namespace Sys2Proof.Machine

def exec (i : Instr) (s : State) : Host.Outcome State Fault Refusal :=
  match i with
  | .enc cp => Sys2Proof.Machine.execEnc cp s
  | .dec b => Sys2Proof.Machine.execDec b s
  | .crcInit => Sys2Proof.Machine.execCrcInit s
  | .crcFeed b => Sys2Proof.Machine.execCrcFeed b s
  | .crcTag => Sys2Proof.Machine.execCrcTag s
  | .vfyInit => Sys2Proof.Machine.execVfyInit s
  | .vfyFeed b => Sys2Proof.Machine.execVfyFeed b s
  | .vfyEnd => Sys2Proof.Machine.execVfyEnd s
  | .ftxBegin => Sys2Proof.Machine.execFtxBegin s
  | .ftxByte b => Sys2Proof.Machine.execFtxByte b s
  | .ftxEnd => Sys2Proof.Machine.execFtxEnd s
  | .frxInit => Sys2Proof.Machine.execFrxInit s
  | .frxByte b => Sys2Proof.Machine.execFrxByte b s
  | .frxEnd => Sys2Proof.Machine.execFrxEnd s
  | .frxStat => Sys2Proof.Machine.execFrxStat s

end Sys2Proof.Machine
end

