-- ==== Sys2Proof/Machine/Execute.lean ====
section
/-! DEFINITION. Executing one command word (00_scope.md R5, 30_encoding.md R65, R72). -/

namespace Sys2Proof.Machine

/-- Decoding comes before any state is read (R72): a legal word runs its command, an illegal one is reported (R65). -/
def runWord (w : Word) (s : State) : Host.Outcome State Fault Refusal :=
  match decode w with
  | .ok i => exec i s
  | .error _ => illegalCommand w s

end Sys2Proof.Machine
end

