-- ==== Sys2Proof/Machine/Step.lean ====
section
/-! DEFINITION. One step of the machine: the block takes the host's next event (00_scope.md R5). With none it is idle and keeps
all its state (60_exceptions.md R174; log 7). -/

namespace Sys2Proof.Machine

/-- One step: the oldest host event is taken. -/
def step (s : State) : Host.Outcome State Fault Refusal :=
  match s.pending with
  | [] => .next s
  | .command w :: later => runWord w (s.acceptCommand later)
  | .readResponse :: later => .next (s.acceptRead later)
  | .reset :: later => .next (s.acceptReset later)

/-- The state in which the host's next event is the issue of the word the opcode table's `nbits` bits `w` spell. -/
def State.withFetchWord (s : State) (nbits w : Nat) : State :=
  { s with pending := .command (tableWord nbits w) :: s.pending }

end Sys2Proof.Machine
end

