-- ==== Sys2Proof/Machine/Pseudo.lean ====
section
/-! DEFINITION. The pseudo-instructions (30_encoding.md R71). Each stands for a list of commands, which are issued one by one:
a pseudo-instruction is not atomic. -/

namespace Sys2Proof.Machine

/-- The eight pseudo-instructions of R71; a list may be empty. -/
inductive Pseudo
  | crcFeeds (bs : List Byte)
  | crcOf (bs : List Byte)
  | vfyFeeds (bs : List Byte)
  | ftxBytes (bs : List Byte)
  | ftxFrame (bs : List Byte)
  | frxBytes (bs : List Byte)
  | encStr (s : List CodePoint)
  | decBytes (bs : List Byte)
  deriving DecidableEq, Repr

/-- The expansion column of R71. -/
def Pseudo.expand : Pseudo → List Instr
  | .crcFeeds bs => bs.map .crcFeed
  | .crcOf bs => [.crcInit] ++ bs.map .crcFeed ++ [.crcTag]
  | .vfyFeeds bs => bs.map .vfyFeed
  | .ftxBytes bs => bs.map .ftxByte
  | .ftxFrame bs => [.ftxBegin] ++ bs.map .ftxByte ++ [.ftxEnd]
  | .frxBytes bs => bs.map .frxByte
  | .encStr s => s.map .enc
  | .decBytes bs => bs.map .dec

end Sys2Proof.Machine
end

