-- ==== Sys2Proof/Machine/Assembler.lean ====
section
/-! DEFINITION. The assembler (30_encoding.md R70): source commands to words, and source text to source commands, with the
pseudo-instructions of R71. A text is a list of characters. What R70 leaves open of the text form is log 10. -/

namespace Sys2Proof.Machine

/-- A byte operand that fits its field (R70). -/
def byteOperand (o : SourceOperand) : Option Byte :=
  match o with
  | .byte v => if v < 2 ^ 8 then some (BitVec.ofNat 8 v) else none
  | _ => none

/-- A code-point operand that fits its field (R70). -/
def codePointOperand (o : SourceOperand) : Option CodePoint :=
  match o with
  | .codePoint v => if v < 2 ^ 21 then some (BitVec.ofNat 21 v) else none
  | _ => none

/-- A command without operand. -/
def bareCommand (o : SourceOperand) (i : Instr) : Option Instr := if o = .none then some i else none

/-- The command of a source command, none where the assembler refuses it (R70). -/
def assembleCommand (c : SourceCommand) : Option Instr :=
  match c.mnemonic with
  | .enc => (codePointOperand c.operand).map .enc
  | .dec => (byteOperand c.operand).map .dec
  | .crcInit => bareCommand c.operand .crcInit
  | .crcFeed => (byteOperand c.operand).map .crcFeed
  | .crcTag => bareCommand c.operand .crcTag
  | .vfyInit => bareCommand c.operand .vfyInit
  | .vfyFeed => (byteOperand c.operand).map .vfyFeed
  | .vfyEnd => bareCommand c.operand .vfyEnd
  | .ftxBegin => bareCommand c.operand .ftxBegin
  | .ftxByte => (byteOperand c.operand).map .ftxByte
  | .ftxEnd => bareCommand c.operand .ftxEnd
  | .frxInit => bareCommand c.operand .frxInit
  | .frxByte => (byteOperand c.operand).map .frxByte
  | .frxEnd => bareCommand c.operand .frxEnd
  | .frxStat => bareCommand c.operand .frxStat

/-- The spelling of a mnemonic (R64). -/
def Mnemonic.spelling : Mnemonic → List Char
  | .enc => ['E', 'N', 'C']
  | .dec => ['D', 'E', 'C']
  | .crcInit => ['C', 'R', 'C', '_', 'I', 'N', 'I', 'T']
  | .crcFeed => ['C', 'R', 'C', '_', 'F', 'E', 'E', 'D']
  | .crcTag => ['C', 'R', 'C', '_', 'T', 'A', 'G']
  | .vfyInit => ['V', 'F', 'Y', '_', 'I', 'N', 'I', 'T']
  | .vfyFeed => ['V', 'F', 'Y', '_', 'F', 'E', 'E', 'D']
  | .vfyEnd => ['V', 'F', 'Y', '_', 'E', 'N', 'D']
  | .ftxBegin => ['F', 'T', 'X', '_', 'B', 'E', 'G', 'I', 'N']
  | .ftxByte => ['F', 'T', 'X', '_', 'B', 'Y', 'T', 'E']
  | .ftxEnd => ['F', 'T', 'X', '_', 'E', 'N', 'D']
  | .frxInit => ['F', 'R', 'X', '_', 'I', 'N', 'I', 'T']
  | .frxByte => ['F', 'R', 'X', '_', 'B', 'Y', 'T', 'E']
  | .frxEnd => ['F', 'R', 'X', '_', 'E', 'N', 'D']
  | .frxStat => ['F', 'R', 'X', '_', 'S', 'T', 'A', 'T']

/-- The names of the pseudo-instructions over bytes (R71). -/
def bytePseudos : List (List Char × (List Byte → Pseudo)) :=
  [(['C', 'R', 'C', '_', 'F', 'E', 'E', 'D', 'S'], .crcFeeds),
   (['C', 'R', 'C', '_', 'O', 'F'], .crcOf),
   (['V', 'F', 'Y', '_', 'F', 'E', 'E', 'D', 'S'], .vfyFeeds),
   (['F', 'T', 'X', '_', 'B', 'Y', 'T', 'E', 'S'], .ftxBytes),
   (['F', 'T', 'X', '_', 'F', 'R', 'A', 'M', 'E'], .ftxFrame),
   (['F', 'R', 'X', '_', 'B', 'Y', 'T', 'E', 'S'], .frxBytes),
   (['D', 'E', 'C', '_', 'B', 'Y', 'T', 'E', 'S'], .decBytes)]

/-- The name of the pseudo-instruction over a string (R71). -/
def encStrName : List Char := ['E', 'N', 'C', '_', 'S', 'T', 'R']

/-- A blank between the parts of a line (log 10). -/
def isBlank (c : Char) : Bool := c == ' ' || c == '\t'

/-- The text without leading blanks. -/
def skipBlanks (t : List Char) : List Char := t.dropWhile isBlank

/-- The text without leading and trailing blanks. -/
def trimBlanks (t : List Char) : List Char := (skipBlanks (skipBlanks t).reverse).reverse

/-- Nothing is left of the line but a comment, which runs from `;` to its end (R70). -/
def onlyComment (t : List Char) : Bool :=
  match skipBlanks t with
  | [] => true
  | c :: _ => c == ';'

/-- The value of a hex digit (either case, log 10). -/
def hexDigit (c : Char) : Option Nat :=
  if '0'.toNat ≤ c.toNat ∧ c.toNat ≤ '9'.toNat then some (c.toNat - '0'.toNat)
  else if 'A'.toNat ≤ c.toNat ∧ c.toNat ≤ 'F'.toNat then some (c.toNat - 'A'.toNat + 10)
  else if 'a'.toNat ≤ c.toNat ∧ c.toNat ≤ 'f'.toNat then some (c.toNat - 'a'.toNat + 10)
  else none

/-- The number a run of hex digits spells, most significant first. -/
def hexNumber (ds : List Char) : Option Nat :=
  (ds.mapM hexDigit).map fun vs => vs.foldl (fun n v => 16 * n + v) 0

/-- A byte literal `0xHH`, two hex digits, and nothing else (R70). -/
def byteLiteral (t : List Char) : Option Nat :=
  match t with
  | ['0', 'x', h, l] => hexNumber [h, l]
  | _ => none

/-- A code-point literal and the text after it: `U+XXXX` with 4 to 6 hex digits, or a quoted single character (R70).
A `;` between the quotes is that character and starts no comment (DESIGN CHOICE, log 10). -/
def codePointLiteral (t : List Char) : Option (Nat × List Char) :=
  match t with
  | 'U' :: '+' :: r =>
    let ds := r.takeWhile fun c => (hexDigit c).isSome
    if 4 ≤ ds.length ∧ ds.length ≤ 6 then (hexNumber ds).map fun v => (v, r.drop ds.length) else none
  | '\'' :: c :: '\'' :: r => some (c.toNat, r)
  | _ => none

/-- The pieces of a text between commas. -/
def splitCommas : List Char → List (List Char)
  | [] => [[]]
  | c :: r =>
    match splitCommas r with
    | [] => [[c]]
    | p :: ps => if c == ',' then [] :: p :: ps else (c :: p) :: ps

/-- A list of byte literals between commas, which may be empty (R71), up to a comment. -/
def byteList (t : List Char) : Option (List Byte) :=
  let u := trimBlanks (t.takeWhile (· ≠ ';'))
  if u = [] then some []
  else (splitCommas u).mapM fun p => (byteLiteral (trimBlanks p)).map (BitVec.ofNat 8)

/-- The code points of a quoted string that ends at the next quote, with only a comment after it (R71; log 10). A `;` inside
the string is one of its characters and starts no comment (DESIGN CHOICE, log 10). -/
def quotedString (t : List Char) : Option (List CodePoint) :=
  match skipBlanks t with
  | '"' :: r =>
    let s := r.takeWhile (· ≠ '"')
    match r.drop s.length with
    | '"' :: after => if onlyComment after then some (s.map fun c => BitVec.ofNat 21 c.toNat) else none
    | _ => none
  | _ => none

/-- The operand text of a command in the form its format takes (R70). -/
def operandText (f : Format) (t : List Char) : Option SourceOperand :=
  match f with
  | .f0 => if onlyComment t then some .none else none
  | .fb => (byteLiteral (trimBlanks (t.takeWhile (· ≠ ';')))).map .byte
  | .fc =>
    match codePointLiteral (skipBlanks t) with
    | some (v, after) => if onlyComment after then some (.codePoint v) else none
    | none => none

/-- The commands a line of source stands for: none of them for a blank or comment line, one for a command, the expansion for
a pseudo-instruction; refused otherwise (R70, R71). -/
def assembleLine (line : List Char) : Option (List Instr) :=
  let t := skipBlanks line
  if onlyComment t then some []
  else
    let name := t.takeWhile fun c => !(isBlank c || c == ';')
    let operand := t.drop name.length
    match Mnemonic.all.find? fun m => Mnemonic.spelling m == name with
    | some m => (operandText m.format operand).bind fun o => (assembleCommand ⟨m, o⟩).map fun i => [i]
    | none =>
      match bytePseudos.find? fun p => p.1 == name with
      | some p => (byteList operand).map fun bs => (p.2 bs).expand
      | none => if name = encStrName then (quotedString operand).map fun s => (Pseudo.encStr s).expand else none

/-- The words of a source program, one line after another; refused if a line is (R70). -/
def assemble (lines : List (List Char)) : Option (List Word) :=
  (lines.mapM assembleLine).map fun is => is.flatten.map encode

end Sys2Proof.Machine
end

