-- ==== Sys2Proof/Safety.lean ====
section
/-! DEFINITION. What claims say of runs: the invariant of the registers (10_state.md R25 to R29), the responses the block may
give (60_exceptions.md R162), the state of each unit (70_reset_and_hazards.md R188), runs of commands (R194) and the host's
duty R185. -/

namespace Sys2Proof.Machine

/-- The delay line holds only what `vcnt` says is meaningful (R26), and no byte has entered the checker's CRC before the line
was full (R25). -/
abbrev Registers.delayLineOk (r : Registers) : Prop :=
  (r.vcnt = 0 → r.vhold0 = 0) ∧ (r.vcnt < 2 → r.vhold1 = 0 ∧ r.vcrc = 0xFFFF)

/-- A reason is latched exactly in state ERROR (R29, I8). -/
abbrev Registers.latchOk (r : Registers) : Prop := r.rxwhy = .none ↔ r.rxs ≠ .error

/-- The invariant of the registers. -/
abbrev Registers.wf (r : Registers) : Prop := r.delayLineOk ∧ r.latchOk

/-- What R66 says of every response: at most two out bytes, and none with an error. -/
abbrev Response.wf (p : Response) : Prop := p.out.length ≤ 2 ∧ (p.status ≠ .ok → p.out = [])

/-- The invariant of the machine: of the registers, and of every response the host has heard or will hear. -/
abbrev State.wf (s : State) : Prop := s.regs.wf ∧ ∀ p ∈ s.observed, p.wf

/-- The rows of R162's table: on registers `r`, the command `i` answers the error `p` and leaves the registers `t`
(cause, value and state effect of each row). -/
def errorRow (i : Instr) (r : Registers) (p : Response) (t : Registers) : Prop :=
  match i with
  | .enc cp => cp ∉ Config.charRom.val.permitted ∧ p = .raise .validationError (cp.setWidth 32) ∧ t = r
  | .vfyEnd =>
    t = r.armChecker ∧
    ((r.vcnt < 2 ∧ p = .raise .protocolError 0x01) ∨
     (r.vcnt = 2 ∧ tagOfBytes r.vhold0 r.vhold1 ≠ r.vcrc ^^^ 0xFFFF ∧
      p = .raise .checksumError (tagPairValue (tagOfBytes r.vhold0 r.vhold1) (r.vcrc ^^^ 0xFFFF))))
  | .frxByte b =>
    (r.rxs = .start ∧ b ≠ dle ∧ p = .raise .protocolError 0x02 ∧ t = { r with rxs := .error, rxwhy := .noDle }) ∨
    (r.rxs = .hdr ∧ b ≠ stx ∧ p = .raise .protocolError 0x03 ∧ t = { r with rxs := .error, rxwhy := .noStx }) ∨
    (r.rxs = .esc ∧ b ≠ dle ∧ b ≠ etx ∧ p = .raise .protocolError 0x04 ∧
      t = { r with rxs := .error, rxwhy := .badEscape }) ∨
    (r.rxs = .done ∧ p = .raise .protocolError 0x05 ∧ t = { r with rxs := .error, rxwhy := .trailing }) ∨
    (r.rxs = .error ∧ p = .raise .protocolError (r.rxwhy.code.setWidth 32) ∧ t = r)
  | .frxEnd =>
    t = r.armReceiver ∧
    ((r.rxs = .error ∧ p = .raise .protocolError (r.rxwhy.code.setWidth 32)) ∨
     (r.rxs ≠ .error ∧ r.rxs ≠ .done ∧ p = .raise .protocolError 0x06))
  | .dec _ | .crcInit | .crcFeed _ | .crcTag | .vfyInit | .vfyFeed _ | .ftxBegin | .ftxByte _ | .ftxEnd
  | .frxInit | .frxStat => False

/-- Two register sets hold the same in the registers of a unit (R23's unit column; FTX and CODEC have none). -/
def Registers.agreeOn (u : BlockUnit) (r t : Registers) : Prop :=
  match u with
  | .codec | .transmitter => True
  | .generator => r.crc = t.crc
  | .checker => r.vcrc = t.vcrc ∧ r.vhold0 = t.vhold0 ∧ r.vhold1 = t.vhold1 ∧ r.vcnt = t.vcnt
  | .receiver => r.rxs = t.rxs ∧ r.rxwhy = t.rxwhy

/-- In any state, executing the word `w` is running the command `i` (R60, R64, R72). -/
def RunsAs (w : Word) (i : Instr) : Prop := ∀ s : State, runWord w s = exec i s

/-- In any state, executing the word `w` is answered ILLEGAL_COMMAND with value `w` and no out byte, and nothing else changes
(R65, R164). -/
def AnswersIllegal (w : Word) : Prop :=
  ∀ s : State, runWord w s = .next { s with response := some ⟨.illegalCommand, w, []⟩ }

/-- The start of a run from `s`: the host's events to come are `es`, and a response that waited in `s` has reached the host. -/
def State.await (s : State) (es : List HostEvent) : State := { s.hearResponse with pending := es }

/-- A run of the block with all that a run can list (R194): the events `es` of the host (words issued, legal or illegal,
responses read, resets), from `s`, end in `t`, and the host observes the responses `ps` besides those it could observe before. A
word's response is among them unless a reset comes before the host has read it (R180). -/
def RunsEvents (s : State) (es : List HostEvent) (t : State) (ps : List Response) : Prop :=
  Host.Core.run Sys2Proof.core es.length (s.await es) = .next t ∧
  t.pending = [] ∧ t.observed = s.observed ++ ps

/-- A run of any command words, legal or illegal (R194). -/
def RunsWords (s : State) (ws : List Word) (t : State) (ps : List Response) : Prop :=
  RunsEvents s (ws.map .command) t ps

/-- A run of commands: of their words. -/
def Runs (s : State) (is : List Instr) (t : State) (ps : List Response) : Prop := RunsWords s (is.map encode) t ps

/-- The out bytes of a list of responses, concatenated (R44). -/
def outBytes (ps : List Response) : List Byte := ps.flatMap Response.out

/-- The host's duty of R185: the bytes streamed by a verification or a frame are its payload only if the matching END
returned OK. -/
def acceptedPayload (streamed : List Response) (final : Response) : Option (List Byte) :=
  if final.status = .ok then some (outBytes streamed) else none

/-- Receiving the raw bytes `y` with the block: the receiver is given `y`, then the checker is given the out bytes of the
receiver in order, never the raw bytes (R191), and the host accepts a payload only where both ENDs return OK (R185). `s` is the state before, `t`
after, `result` the accepted payload. -/
def Receives (s : State) (y : List Byte) (t : State) (result : Option (List Byte)) : Prop :=
  ∃ mid armed framed frameEnd armed' checked checkEnd,
    framed.length = y.length ∧ checked.length = (outBytes framed).length ∧
    Runs s ([.frxInit] ++ y.map .frxByte ++ [.frxEnd]) mid ([armed] ++ framed ++ [frameEnd]) ∧
    Runs mid ([.vfyInit] ++ (outBytes framed).map .vfyFeed ++ [.vfyEnd]) t ([armed'] ++ checked ++ [checkEnd]) ∧
    result = (acceptedPayload framed frameEnd).bind fun _ => acceptedPayload checked checkEnd

/-- The bytes with bit `bit` of byte `at_` inverted (R106). -/
def flipBit (y : List Byte) (at_ bit : Nat) : List Byte := y.modify at_ fun b => b ^^^ (1#8 <<< bit)

/-- The CHECKSUM_ERROR value of two tags given as bytes: the received tag's first byte lowest, then its second, then the
expected tag's two (R45, R165). -/
def tagBytesValue (received expected : List Byte) : Option Word :=
  match received, expected with
  | [r0, r1], [e0, e1] => some (e1 ++ e0 ++ r1 ++ r0)
  | _, _ => none

end Sys2Proof.Machine
end

