-- ==== Sys2Proof/Certificates/Slice0/Obligations.lean ====
section
/-! DEFINITION. The statements for the provers, rule by rule of spec/. `Config.charRom` is some admissible ROM that nothing
evaluates, so a statement that names it holds of every ROM the spec admits (log 3). -/

open Sys2Proof Sys2Proof.Machine

/-! ## The command rules -/

/-- R91, whole: the word, the two answers by the permitted set, the corner cases, the examples under `ROM_REF`. -/
def Obligations.EncAnswersByPermittedSet : Prop :=
  let rom := Config.charRom.val
  (∀ cp : CodePoint, RunsAs (0x10000000 ||| cp.setWidth 32) (.enc cp)) ∧
  (∀ cp ∈ rom.permitted, ∃ b, romEnc rom cp = some b ∧
    ∀ s, exec (.enc cp) s = .next { s with response := some ⟨.ok, 0, [b]⟩ }) ∧
  (∀ cp, cp ∉ rom.permitted → romEnc rom cp = none ∧
    ∀ s, exec (.enc cp) s = .next { s with response := some ⟨.validationError, cp.setWidth 32, []⟩ }) ∧
  (∀ cp ∈ structuralMarkers ++ excludedPunct ++ [replacementChar, 0], cp ∉ rom.permitted) ∧
  (∀ cp : CodePoint, cp.toNat < 0x20 ∨ (0x7F ≤ cp.toNat ∧ cp.toNat < 0xA0) ∨
    (0xD800 ≤ cp.toNat ∧ cp.toNat ≤ 0xDFFF) ∨ 0x10FFFF < cp.toNat → cp ∉ rom.permitted) ∧
  apostrophe ∈ rom.permitted ∧
  (∀ w : Word, w.extractLsb' 24 8 = 0x10 → w.extractLsb' 21 3 ≠ 0 → AnswersIllegal w) ∧
  encResponse romRef 0x41 = ⟨.ok, 0, [0x41]⟩ ∧ encResponse romRef 0x25 = ⟨.validationError, 0x25, []⟩ ∧
  romRef.dec 0x22 = apostrophe

/-- R92, whole: the word, the answer for every byte, the corner cases, the examples under `ROM_REF`. -/
def Obligations.DecAnswersEveryByte : Prop :=
  let rom := Config.charRom.val
  (∀ b : Byte, RunsAs (0x11000000 ||| b.setWidth 32) (.dec b)) ∧
  (∀ b s, exec (.dec b) s = .next { s with response := some ⟨.ok, (romDec rom b).setWidth 32, []⟩ }) ∧
  (∀ w : Word, w.extractLsb' 24 8 = 0x11 → w.extractLsb' 8 16 ≠ 0 → AnswersIllegal w) ∧
  (∀ b, romDec rom b ∉ rom.permitted →
    ∀ s, exec (.dec b) s = .next { s with response := some ⟨.ok, 0x0000FFFD, []⟩ }) ∧
  (allBytes.countP fun b => (decResponse rom b).value == 0x00000027) = 2 ∧
  (allBytes.countP fun b => (decResponse rom b).value == rom.oneEighth.codePoint.setWidth 32) = 3 ∧
  (∀ s, exec (.dec 0xFF) s = .next { s with response := some ⟨.ok, 0x0000FFFD, []⟩ }) ∧
  decResponse romRef 0xFF = ⟨.ok, 0x0000FFFD, []⟩ ∧ decResponse romRef 0x22 = ⟨.ok, 0x00000027, []⟩

/-- R108, whole. -/
def Obligations.CrcInitStartsAChecksum : Prop :=
  RunsAs 0x20000000 .crcInit ∧
  (∀ s, exec .crcInit s =
    .next { s with regs := { s.regs with crc := 0xFFFF }, response := some ⟨.ok, 0, []⟩ }) ∧
  (∀ w : Word, w.extractLsb' 24 8 = 0x20 → w.extractLsb' 0 24 ≠ 0 → AnswersIllegal w) ∧
  (∀ s t, exec .crcInit s = .next t → exec .crcInit t = .next t ∧ t.regs.crc = State.reset.regs.crc)

/-- R109, whole. -/
def Obligations.CrcFeedAddsOneByte : Prop :=
  (∀ b : Byte, RunsAs (0x21000000 ||| b.setWidth 32) (.crcFeed b)) ∧
  (∀ b s, exec (.crcFeed b) s =
    .next { s with regs := { s.regs with crc := crcStep s.regs.crc b }, response := some ⟨.ok, 0, []⟩ }) ∧
  (∀ w : Word, w.extractLsb' 24 8 = 0x21 → w.extractLsb' 8 16 ≠ 0 → AnswersIllegal w) ∧
  crcStep 0x0000 0x00 = 0x0000 ∧ crcStep 0xFFFF 0xFF = 0x00FF ∧ crcStep 0xFFFF 0x01 = 0x1E0E

/-- R110, whole: the tag low byte first and the same 16 bits as value, `crc` kept. -/
def Obligations.CrcTagReadsTheTag : Prop :=
  RunsAs 0x22000000 .crcTag ∧
  (∀ s, exec .crcTag s = .next { s with
    response := some ⟨.ok, (s.regs.crc ^^^ 0xFFFF).setWidth 32,
      [(s.regs.crc ^^^ 0xFFFF).extractLsb' 0 8, (s.regs.crc ^^^ 0xFFFF).extractLsb' 8 8]⟩ }) ∧
  (∀ w : Word, w.extractLsb' 24 8 = 0x22 → w.extractLsb' 0 24 ≠ 0 → AnswersIllegal w) ∧
  (∀ s, s.regs.crc = 0xFFFF → exec .crcTag s = .next { s with response := some ⟨.ok, 0, [0x00, 0x00]⟩ }) ∧
  (checksum [0x4C] = [0x10, 0x78] ∧ stuffByte 0x10 = [0x10, 0x10]) ∧
  crcReg 0xFFFF [0x01, 0x50, 0x80] = 0x3410 ∧
  (∀ s, s.regs.crc = 0x3410 → exec .crcTag s =
    .next { s with response := some ⟨.ok, 0x0000CBEF, [0xEF, 0xCB]⟩ })

/-- R111, whole. -/
def Obligations.VfyInitArmsTheChecker : Prop :=
  RunsAs 0x30000000 .vfyInit ∧
  (∀ s, exec .vfyInit s = .next { s with
    regs := { s.regs with vcrc := 0xFFFF, vhold0 := 0x00, vhold1 := 0x00, vcnt := 0 },
    response := some ⟨.ok, 0, []⟩ }) ∧
  (∀ w : Word, w.extractLsb' 24 8 = 0x30 → w.extractLsb' 0 24 ≠ 0 → AnswersIllegal w) ∧
  (∀ s t, exec .vfyInit s = .next t → exec .vfyInit t = .next t ∧
    exec .vfyEnd t = .next { t with response := some ⟨.protocolError, 0x00000001, []⟩ })

/-- R112, whole: the three cases, the bytes emitted over a sequence of feeds, the example. -/
def Obligations.VfyFeedShiftsTheDelayLine : Prop :=
  (∀ b : Byte, RunsAs (0x31000000 ||| b.setWidth 32) (.vfyFeed b)) ∧
  (∀ b s, s.regs.vcnt = 0 → exec (.vfyFeed b) s =
    .next { s with regs := { s.regs with vhold0 := b, vcnt := 1 }, response := some ⟨.ok, 0, []⟩ }) ∧
  (∀ b s, s.regs.vcnt = 1 → exec (.vfyFeed b) s =
    .next { s with regs := { s.regs with vhold1 := b, vcnt := 2 }, response := some ⟨.ok, 0, []⟩ }) ∧
  (∀ b s, s.regs.vcnt = 2 → exec (.vfyFeed b) s =
    .next { s with
      regs := { s.regs with vcrc := crcStep s.regs.vcrc s.regs.vhold0, vhold0 := s.regs.vhold1, vhold1 := b },
      response := some ⟨.ok, 0, [s.regs.vhold0]⟩ }) ∧
  (∀ w : Word, w.extractLsb' 24 8 = 0x31 → w.extractLsb' 8 16 ≠ 0 → AnswersIllegal w) ∧
  (∀ (x : List Byte) (s : State), s.regs.vcnt = 0 → ∃ t ps, Runs s (x.map .vfyFeed) t ps ∧
    ps.map Response.out = (x.take 2).map (fun _ => []) ++ (x.take (x.length - 2)).map fun b => [b]) ∧
  (∀ s, ∃ t p q1 q2 q3 q4 q5,
    Runs s [.vfyInit, .vfyFeed 0x01, .vfyFeed 0x50, .vfyFeed 0x80, .vfyFeed 0xEF, .vfyFeed 0xCB] t
      [p, q1, q2, q3, q4, q5] ∧
    [q1, q2, q3, q4, q5].map Response.out = [[], [], [0x01], [0x50], [0x80]] ∧
    t.regs = { s.regs with vhold0 := 0xEF, vhold1 := 0xCB, vcnt := 2, vcrc := 0x3410 })

/-- R113, whole: SHORT before the comparison, the value, re-arming in every case, the corner cases, the example. -/
def Obligations.VfyEndReportsAndRearms : Prop :=
  RunsAs 0x32000000 .vfyEnd ∧
  (∀ s, exec .vfyEnd s = .next { s with
    regs := { s.regs with vcrc := 0xFFFF, vhold0 := 0x00, vhold1 := 0x00, vcnt := 0 },
    response := some (
      let recv : Crc16 := s.regs.vhold0.setWidth 16 ||| (s.regs.vhold1.setWidth 16 <<< 8)
      let expected : Crc16 := s.regs.vcrc ^^^ 0xFFFF
      let value : Word := recv.setWidth 32 ||| (expected.setWidth 32 <<< 16)
      if s.regs.vcnt < 2 then ⟨.protocolError, 0x00000001, []⟩
      else if recv ≠ expected then ⟨.checksumError, value, []⟩
      else ⟨.ok, value, []⟩) }) ∧
  (∀ w : Word, w.extractLsb' 24 8 = 0x32 → w.extractLsb' 0 24 ≠ 0 → AnswersIllegal w) ∧
  (∀ s t p, exec .vfyEnd s = .next t → t.response = some p → p.status = .ok →
    p.value.extractLsb' 16 16 = p.value.extractLsb' 0 16) ∧
  (∀ s t, exec .vfyEnd s = .next t →
    exec .vfyEnd t = .next { t with response := some ⟨.protocolError, 0x00000001, []⟩ }) ∧
  (∀ s, s.regs.vcnt = 2 → s.regs.vhold0 = 0 → s.regs.vhold1 = 0 → s.regs.vcrc = 0xFFFF →
    exec .vfyEnd s = .next { s with regs := s.regs.armChecker, response := some ⟨.ok, 0x00000000, []⟩ }) ∧
  (∀ s, s.regs.vcnt = 2 → s.regs.vhold0 = 0xEF → s.regs.vcrc = 0x3410 →
    (s.regs.vhold1 = 0xCB → exec .vfyEnd s =
      .next { s with regs := s.regs.armChecker, response := some ⟨.ok, 0xCBEFCBEF, []⟩ }) ∧
    (s.regs.vhold1 = 0xCA → exec .vfyEnd s =
      .next { s with regs := s.regs.armChecker, response := some ⟨.checksumError, 0xCBEFCAEF, []⟩ }))

/-- R135, whole. -/
def Obligations.FtxBeginEmitsTheOpening : Prop :=
  RunsAs 0x40000000 .ftxBegin ∧
  (∀ s, exec .ftxBegin s = .next { s with response := some ⟨.ok, 0, [0x10, 0x02]⟩ }) ∧
  (∀ w : Word, w.extractLsb' 24 8 = 0x40 → w.extractLsb' 0 24 ≠ 0 → AnswersIllegal w) ∧
  (∀ s, ∃ t ps, Runs s [.ftxBegin, .ftxBegin] t ps ∧ outBytes ps = [0x10, 0x02, 0x10, 0x02])

/-- R136, whole. -/
def Obligations.FtxByteStuffsDle : Prop :=
  (∀ b : Byte, RunsAs (0x41000000 ||| b.setWidth 32) (.ftxByte b)) ∧
  (∀ s, exec (.ftxByte 0x10) s = .next { s with response := some ⟨.ok, 0, [0x10, 0x10]⟩ }) ∧
  (∀ b s, b ≠ 0x10 → exec (.ftxByte b) s = .next { s with response := some ⟨.ok, 0, [b]⟩ }) ∧
  (∀ w : Word, w.extractLsb' 24 8 = 0x41 → w.extractLsb' 8 16 ≠ 0 → AnswersIllegal w)

/-- R137, whole. -/
def Obligations.FtxEndEmitsTheClosing : Prop :=
  RunsAs 0x42000000 .ftxEnd ∧
  (∀ s, exec .ftxEnd s = .next { s with response := some ⟨.ok, 0, [0x10, 0x03]⟩ }) ∧
  (∀ w : Word, w.extractLsb' 24 8 = 0x42 → w.extractLsb' 0 24 ≠ 0 → AnswersIllegal w) ∧
  (∀ s, ∃ t ps, Runs s [.ftxBegin, .ftxEnd] t ps ∧ outBytes ps = [0x10, 0x02, 0x10, 0x03] ∧ frame [] = outBytes ps)

/-- R138, whole. -/
def Obligations.FrxInitArmsTheReceiver : Prop :=
  RunsAs 0x50000000 .frxInit ∧
  (∀ s, exec .frxInit s = .next { s with
    regs := { s.regs with rxs := .start, rxwhy := .none }, response := some ⟨.ok, 0, []⟩ }) ∧
  (∀ w : Word, w.extractLsb' 24 8 = 0x50 → w.extractLsb' 0 24 ≠ 0 → AnswersIllegal w) ∧
  (∀ s t, exec .frxInit s = .next t → exec .frxInit t = .next t ∧
    exec .frxStat t = .next { t with response := some ⟨.ok, 0x00000000, []⟩ })

/-- R139, whole: the state machine, the repeated latched reason, the example. -/
def Obligations.FrxByteStepsTheReceiver : Prop :=
  (∀ b : Byte, RunsAs (0x51000000 ||| b.setWidth 32) (.frxByte b)) ∧
  (∀ (b : Byte) (s : State),
    let go (st : RxState) (out : List Byte) : State :=
      { s with regs := { s.regs with rxs := st }, response := some ⟨.ok, 0, out⟩ }
    let latch (why : RxWhy) (reason : Word) : State :=
      { s with regs := { s.regs with rxs := .error, rxwhy := why }, response := some ⟨.protocolError, reason, []⟩ }
    exec (.frxByte b) s = .next (match s.regs.rxs with
      | .start => if b = 0x10 then go .hdr [] else latch .noDle 2
      | .hdr => if b = 0x02 then go .data [] else latch .noStx 3
      | .data => if b = 0x10 then go .esc [] else go .data [b]
      | .esc => if b = 0x10 then go .data [0x10] else if b = 0x03 then go .done [] else latch .badEscape 4
      | .done => latch .trailing 5
      | .error => { s with response := some ⟨.protocolError, s.regs.rxwhy.code.setWidth 32, []⟩ })) ∧
  (∀ w : Word, w.extractLsb' 24 8 = 0x51 → w.extractLsb' 8 16 ≠ 0 → AnswersIllegal w) ∧
  (∀ s, s.regs.rxs = .start → ∃ t ps,
    Runs s ([0x10, 0x02, 0x41, 0x10, 0x10, 0x03, 0x10, 0x03].map .frxByte) t ps ∧
    ps = [[], [], [0x41], [], [0x10], [0x03], [], []].map (fun o => ⟨.ok, 0, o⟩) ∧
    t.regs = { s.regs with rxs := .done })

/-- R140, whole: the three answers, re-arming in every case, the corner case, the examples. -/
def Obligations.FrxEndReportsAndRearms : Prop :=
  RunsAs 0x52000000 .frxEnd ∧
  (∀ s, exec .frxEnd s = .next { s with
    regs := { s.regs with rxs := .start, rxwhy := .none },
    response := some (
      if s.regs.rxs = .done then ⟨.ok, 0, []⟩
      else if s.regs.rxs = .error then ⟨.protocolError, s.regs.rxwhy.code.setWidth 32, []⟩
      else ⟨.protocolError, 0x00000006, []⟩) }) ∧
  (∀ w : Word, w.extractLsb' 24 8 = 0x52 → w.extractLsb' 0 24 ≠ 0 → AnswersIllegal w) ∧
  (∀ s t, exec .frxEnd s = .next t →
    exec .frxEnd t = .next { t with response := some ⟨.protocolError, 0x00000006, []⟩ }) ∧
  (∀ s, s.regs.rxs = .start → ∃ t ps,
    Runs s ([0x10, 0x02, 0x10, 0x03].map .frxByte ++ [.frxEnd]) t ps ∧ ps.getLast? = some ⟨.ok, 0, []⟩) ∧
  (∀ s, s.regs.rxs = .start → ∃ t ps,
    Runs s ([0x10, 0x02, 0x10, 0x10, 0x03].map .frxByte ++ [.frxEnd]) t ps ∧
    ps.getLast? = some ⟨.protocolError, 0x00000006, []⟩)

/-- R141, whole: the value, the bits that are always 0, the complete-frame test, the examples. -/
def Obligations.FrxStatReadsTheReceiver : Prop :=
  RunsAs 0x53000000 .frxStat ∧
  (∀ s, exec .frxStat s = .next { s with
    response := some ⟨.ok, s.regs.rxs.code.setWidth 32 ||| (s.regs.rxwhy.code.setWidth 32 <<< 4), []⟩ }) ∧
  (∀ w : Word, w.extractLsb' 24 8 = 0x53 → w.extractLsb' 0 24 ≠ 0 → AnswersIllegal w) ∧
  (∀ (x : RxState) (why : RxWhy),
    let v : Word := x.code.setWidth 32 ||| (why.code.setWidth 32 <<< 4)
    v.extractLsb' 8 24 = 0 ∧ v.getLsbD 3 = false ∧ (v = 0x04 ↔ x = .done ∧ why = .none)) ∧
  exec .frxStat State.reset = .next { State.reset with response := some ⟨.ok, 0x00000000, []⟩ } ∧
  (∀ s, s.regs.rxs = .start → s.regs.rxwhy = .none →
    (∃ t ps, Runs s ([0x10, 0x02, 0x10, 0x03].map .frxByte ++ [.frxStat]) t ps ∧
      ps.getLast? = some ⟨.ok, 0x00000004, []⟩) ∧
    (∃ t ps, Runs s [.frxByte 0x41, .frxStat] t ps ∧ ps.getLast? = some ⟨.ok, 0x00000027, []⟩))

/-! ## Words, decoding, steps -/

/-- R65, R164: a word is a command exactly if it is of a row of the opcode table, every other word is answered
ILLEGAL_COMMAND and changes no register, and the unassigned opcodes are those listed. -/
def Obligations.IllegalWordsAreAnsweredAndChangeNothing : Prop :=
  (∀ w, (∃ i, decode w = .ok i) ↔ legalWord w = true) ∧
  (∀ w, legalWord w = false → AnswersIllegal w) ∧
  (∀ w : Word,
    (let op := (w.extractLsb' 24 8).toNat
     op ≤ 0x0F ∨ (0x12 ≤ op ∧ op ≤ 0x1F) ∨ (0x23 ≤ op ∧ op ≤ 0x2F) ∨ (0x33 ≤ op ∧ op ≤ 0x3F) ∨
     (0x43 ≤ op ∧ op ≤ 0x4F) ∨ 0x54 ≤ op) → AnswersIllegal w)

/-- R60 to R64: every command's word decodes to it, with every operand at every value. -/
def Obligations.DecodeOfEncodeIsTheCommand : Prop :=
  ∀ i : Instr, i.wellFormed = true → decode (encode i) = .ok i

/-- R60 to R64, R72: each word has one meaning: what decodes to a command is that command's word. -/
def Obligations.EncodeOfDecodeIsTheWord : Prop :=
  ∀ (w : Word) (i : Instr), decode w = .ok i → encode i = w

/-- R64: no word is of two rows of the opcode table. -/
def Obligations.OpcodeRowsDoNotOverlap : Prop :=
  ∀ (w : Word), ∀ r ∈ opcodeTable, ∀ q ∈ opcodeTable, r.covers w = true → q.covers w = true → r = q

/-- Words written out from R60 to R64 decode to the commands they stand for. -/
def Obligations.SampleWordsDecode : Prop :=
  decode 0x101FFFFF = .ok (.enc 0x1FFFFF) ∧ decode 0x11000022 = .ok (.dec 0x22) ∧
  decode 0x20000000 = .ok .crcInit ∧ decode 0x21000080 = .ok (.crcFeed 0x80) ∧ decode 0x31000001 = .ok (.vfyFeed 0x01) ∧
  decode 0x32000000 = .ok .vfyEnd ∧ decode 0x41000010 = .ok (.ftxByte 0x10) ∧ decode 0x510000B7 = .ok (.frxByte 0xB7) ∧
  decode 0x53000000 = .ok .frxStat

/-- R5, R72: when the host's next event is a word that decodes to a command, the step is that command's meaning, on the state
whose port has taken the event and whose waiting response has reached the host; and of any word, the step executes it there.
The port's form and the delivery of the waiting response are the model's (log 1, log 4). -/
def Obligations.StepRunsTheDecodedCommand : Prop :=
  ∀ (w : Word) (s : State) (later : List HostEvent),
    (∀ i : Instr, decode w = .ok i → step { s with pending := .command w :: later } =
      exec i { s with pending := later, heard := s.observed, response := none }) ∧
    step { s with pending := .command w :: later } =
      runWord w { s with pending := later, heard := s.observed, response := none }

/-- R66, R5, R160, R194: nothing stops the machine, and every command word, legal or illegal, is answered by exactly one response,
of at most two out bytes, and by none with an error. So a run of any words has as many responses as words, and an illegal word in
it adds its ILLEGAL_COMMAND and changes no other response and no register. The port's form is the model's (log 1, log 4). -/
def Obligations.EveryWordGetsOneResponse : Prop :=
  (∀ s : State, ∃ t, step s = .next t) ∧
  (∀ (w : Word) (s : State) (later : List HostEvent), ∃ t p,
    step { s with pending := .command w :: later } = .next t ∧ t.pending = later ∧
    t.response = some p ∧ t.observed = s.observed ++ [p] ∧
    p.out.length ≤ 2 ∧ (p.status ≠ .ok → p.out = [])) ∧
  (∀ (s : State) (ws : List Word), ∃ t ps, RunsWords s ws t ps ∧ ps.length = ws.length) ∧
  (∀ (s : State) (ws vs : List Word) (w : Word), legalWord w = false → ∃ t t' ps qs,
    ps.length = ws.length ∧ qs.length = vs.length ∧
    RunsWords s (ws ++ [w] ++ vs) t (ps ++ [⟨.illegalCommand, w, []⟩] ++ qs) ∧
    RunsWords s (ws ++ vs) t' (ps ++ qs) ∧ t.regs = t'.regs)

/-- R174: with nothing pending the block is idle and keeps all its state; a read of the response changes no register. That a
step with nothing pending is a next state is the model's form (log 7). -/
def Obligations.BlockIsIdleBetweenCommands : Prop :=
  (∀ s : State, s.pending = [] → step s = .next s) ∧
  (∀ (s : State) (later : List HostEvent),
    step { s with pending := .readResponse :: later } =
      .next { s with pending := later, heard := s.observed, response := none })

/-! ## Reset and the invariant -/

/-- R181: the reset value of every register, and that it is what each unit's INIT gives it. -/
def Obligations.ResetGivesEveryRegisterItsValue : Prop :=
  State.reset.regs = ⟨0xFFFF, 0xFFFF, 0x00, 0x00, 0, .start, .none⟩ ∧
  (∀ s t, exec .crcInit s = .next t → t.regs.crc = State.reset.regs.crc) ∧
  (∀ s t, exec .vfyInit s = .next t → t.regs.agreeOn .checker State.reset.regs) ∧
  (∀ s t, exec .frxInit s = .next t → t.regs.agreeOn .receiver State.reset.regs)

/-- The sentence of R182, which the spec marks as derived: CRC_INIT, VFY_INIT and FRX_INIT from any state give the registers of
reset. -/
def Obligations.ThreeInitsEqualReset : Prop :=
  ∀ s : State, ∃ t ps, Runs s [.crcInit, .vfyInit, .frxInit] t ps ∧ t.regs = State.reset.regs

/-- R180, R194: the reset input puts every register into its reset value, and a command whose response the host has not read is
lost with its response (log 5). So in a run that lists a reset, the responses are those read before it, and then those of the
run of what follows from reset. -/
def Obligations.ResetLosesTheUnreadCommand : Prop :=
  (∀ (s : State) (later : List HostEvent),
    step { s with pending := .reset :: later } =
      .next { s with regs := State.reset.regs, pending := later, response := none }) ∧
  (∀ (s : State) (w : Word),
    Host.Core.run Sys2Proof.core 2 { s with pending := [.command w, .reset] } =
      .next { s with regs := State.reset.regs, pending := [], heard := s.observed, response := none }) ∧
  (∀ (s : State) (es fs : List HostEvent), ∃ t u v ps qs,
    RunsEvents s (es ++ [.reset] ++ fs) t (ps ++ qs) ∧
    RunsEvents s es v (ps ++ v.response.toList) ∧
    RunsEvents State.reset fs u qs ∧ t.regs = u.regs)

/-- R26, R29, R66: the machine's invariant holds after reset. -/
def Obligations.ResetIsWellFormed : Prop := State.reset.wf

/-- R25, R26, R29, R66: every step keeps the machine's invariant: the delay line holds only what the count says, a reason is
latched exactly in ERROR, and every response is well formed. The spec marks R26's invariants as derived; that a reason is
latched in every ERROR is I8's treatment (log 6). -/
def Obligations.StepKeepsTheInvariant : Prop :=
  ∀ s t : State, s.wf → step s = .next t → t.wf

/-- R162: every response is OK or a row of the table of errors, with that row's cause, value and state effect; and where a row's
cause holds, that row is the response. The spec marks this as derived. -/
def Obligations.OnlyTheListedErrorsAreReported : Prop :=
  (∀ (i : Instr) (s : State), ∃ t p, exec i s = .next t ∧ t.response = some p ∧
    (p.status = .ok ∨ errorRow i s.regs p t.regs) ∧
    ∀ q r, errorRow i s.regs q r → q = p ∧ r = t.regs) ∧
  (∀ (w : Word) (e : DecodeError), decode w = .error e → AnswersIllegal w)

/-- The numeric codes of R28, R29, R67 and R163. -/
def Obligations.CodesAreThoseOfTheTables : Prop :=
  [RxState.start, .hdr, .data, .esc, .done, .error].map RxState.code = [0, 1, 2, 3, 4, 7] ∧
  [RxWhy.none, .noDle, .noStx, .badEscape, .trailing].map RxWhy.code = [0, 2, 3, 4, 5] ∧
  [Status.ok, .protocolError, .checksumError, .validationError, .illegalCommand].map Status.code = [0, 1, 2, 3, 4] ∧
  [Reason.short, .noDle, .noStx, .badEscape, .trailing, .truncated].map Reason.code = [1, 2, 3, 4, 5, 6]

/-! ## Frames: what commands leave alone -/

/-- R47: seven commands change no register, and issued twice give the same response twice. The spec marks this as derived. -/
def Obligations.SevenCommandsChangeNoRegister : Prop :=
  ∀ (i : Instr) (s t : State),
    (i.mnemonic = .enc ∨ i.mnemonic = .dec ∨ i.mnemonic = .crcTag ∨ i.mnemonic = .ftxBegin ∨ i.mnemonic = .ftxByte ∨
      i.mnemonic = .ftxEnd ∨ i.mnemonic = .frxStat) →
    exec i s = .next t → t = { s with response := t.response } ∧ exec i t = .next t

/-- R188, R169: a command changes no register of another unit, and nothing of the port but its own response. -/
def Obligations.CommandsLeaveOtherUnitsAlone : Prop :=
  ∀ (i : Instr) (s t : State), exec i s = .next t →
    (∀ u : BlockUnit, u ≠ i.unit → t.regs.agreeOn u s.regs) ∧ t.pending = s.pending ∧ t.heard = s.heard

/-- R31, R188: a command's response, and what it leaves in its unit, depend on no other unit's registers: `vcrc` is seen only
through the checker, `crc` only through the generator. The spec marks this as derived. -/
def Obligations.ResponsesDependOnOneUnit : Prop :=
  ∀ (i : Instr) (s s' t t' : State), s.regs.agreeOn i.unit s'.regs → exec i s = .next t → exec i s' = .next t' →
    t.response = t'.response ∧ t.regs.agreeOn i.unit t'.regs

/-- R188: transactions on different units may be interleaved freely: two commands of different units, in either order, give the
same registers and the same responses. The spec marks this as derived. -/
def Obligations.CommandsOfDifferentUnitsCommute : Prop :=
  ∀ (i j : Instr) (s : State), i.unit ≠ j.unit → ∃ t t' p q,
    Runs s [i, j] t [p, q] ∧ Runs s [j, i] t' [q, p] ∧ t.regs = t'.regs

/-- R169: the receiver leaves ERROR only by FRX_INIT, FRX_END or reset. -/
def Obligations.ErrorIsLeftOnlyByRearming : Prop :=
  ∀ s t : State, s.regs.rxs = .error → step s = .next t → t.regs.rxs ≠ .error →
    ∃ later, s.pending = .reset :: later ∨
      ∃ w, s.pending = .command w :: later ∧ (decode w = .ok .frxInit ∨ decode w = .ok .frxEnd)

/-! ## CRC-16/X.25 -/

/-- R102: the parametric definition and the reflected register form are the same checksum. The spec gives this from general
knowledge. -/
def Obligations.ParametricAndReflectedFormsAgree : Prop :=
  (∀ bs : List Byte, crcParam bs = crcReg 0xFFFF bs ^^^ 0xFFFF) ∧ (0xFFFF : Crc16).reverse = 0xFFFF ∧
  (0x1021 : Crc16).reverse = 0x8408

/-- R103: the checksum of no bytes, and the published check value. The spec marks the two values as derived. -/
def Obligations.ChecksumOfKnownSequences : Prop :=
  (∀ bs : List Byte, crc16X25 bs = crcReg 0xFFFF bs ^^^ 0xFFFF ∧
    checksum bs = [(crc16X25 bs).extractLsb' 0 8, (crc16X25 bs).extractLsb' 8 8]) ∧
  crcReg 0xFFFF [] = 0xFFFF ∧ checksum [] = [0x00, 0x00] ∧
  crc16X25 [0x31, 0x32, 0x33, 0x34, 0x35, 0x36, 0x37, 0x38, 0x39] = 0x906E

/-- R116: `crc_reg` composes, and is linear over GF(2) for sequences of equal length. The spec marks the first as derived and
gives the second from general knowledge. -/
def Obligations.CrcComposesAndIsLinear : Prop :=
  (∀ (c : Crc16) (a b : List Byte), crcReg c (a ++ b) = crcReg (crcReg c a) b) ∧
  (∀ (c : Crc16) (a b : List Byte), a.length = b.length →
    crcReg c a ^^^ crcReg c b = crcReg 0 (List.zipWith (· ^^^ ·) a b))

/-- R107: the residue of a sequence with its tag. The spec gives this from general knowledge. -/
def Obligations.ResidueIsConstant : Prop :=
  ∀ x : List Byte, crcReg 0xFFFF (x ++ checksum x) = 0xF0B8

/-- R105: verifying a sequence with its tag returns the sequence. The spec marks this as derived. -/
def Obligations.VerifyUndoesChecksum : Prop :=
  ∀ x : List Byte, verify (x ++ checksum x) = .ok x

/-- R106: every single-bit error in a sequence with its tag is detected, as a checksum error. That the failure is a checksum
error the spec gives from general knowledge. -/
def Obligations.SingleBitErrorsAreDetected : Prop :=
  ∀ (x : List Byte) (k bit : Nat), k < (x ++ checksum x).length → bit < 8 →
    ∃ received expected, verify (flipBit (x ++ checksum x) k bit) = .error (.checksum received expected)

/-- R24: what `crc` holds after CRC_INIT and any feeds, and whose tag it gives. -/
def Obligations.CrcRegisterHoldsTheRunningCrc : Prop :=
  ∀ (s : State) (bs : List Byte), ∃ t ps, Runs s (.crcInit :: bs.map .crcFeed) t ps ∧
    t.regs = { s.regs with crc := crcReg 0xFFFF bs } ∧
    checksum bs = [(t.regs.crc ^^^ 0xFFFF).extractLsb' 0 8, (t.regs.crc ^^^ 0xFFFF).extractLsb' 8 8]

/-- R114: the generator's commands compute the checksum function. The spec marks this as derived. -/
def Obligations.GeneratorComputesTheChecksum : Prop :=
  ∀ (s : State) (bs : List Byte), ∃ t ps p, Runs s (Pseudo.crcOf bs).expand t (ps ++ [p]) ∧
    (∀ q ∈ ps ++ [p], q.status = .ok) ∧ p.out = checksum bs ∧ p.value = (crc16X25 bs).setWidth 32

/-- R187: CRC_TAG does not restart the checksum: without CRC_INIT between, the second tag is that of both payloads. The spec
marks this as derived. -/
def Obligations.TagDoesNotRestartTheChecksum : Prop :=
  ∀ (s : State) (a b : List Byte), ∃ t ps p qs q,
    ps.length = a.length + 1 ∧ qs.length = b.length ∧
    Runs s ((Pseudo.crcOf a).expand ++ (b.map .crcFeed ++ [.crcTag])) t ((ps ++ [p]) ++ (qs ++ [q])) ∧
    p.out = checksum a ∧ q.out = checksum (a ++ b)

/-- R25, R26: after VFY_INIT or VFY_END and any feeds, `vcrc` covers every byte but the last two, and those stand in the delay
line in arrival order. The spec marks R26's invariants as derived. -/
def Obligations.CheckerHoldsBackTheLastTwoBytes : Prop :=
  ∀ (s : State) (arm : Instr) (x : List Byte), arm = .vfyInit ∨ arm = .vfyEnd →
    ∃ t ps, Runs s (arm :: x.map .vfyFeed) t ps ∧
      t.regs.vcrc = crcReg 0xFFFF (x.take (x.length - 2)) ∧ t.regs.vcnt.val = min 2 x.length ∧
      (x = [] → t.regs.vhold0 = 0x00 ∧ t.regs.vhold1 = 0x00) ∧
      (∀ b, x = [b] → t.regs.vhold0 = b ∧ t.regs.vhold1 = 0x00) ∧
      (2 ≤ x.length → [t.regs.vhold0, t.regs.vhold1] = x.drop (x.length - 2))

/-- R115: the checker's commands compute the verify function: its result, its error and the bytes streamed. The spec marks this
as derived. -/
def Obligations.CheckerComputesVerify : Prop :=
  ∀ (s : State) (x : List Byte), ∃ t armed ps p, ps.length = x.length ∧
    Runs s ([.vfyInit] ++ x.map .vfyFeed ++ [.vfyEnd]) t ([armed] ++ ps ++ [p]) ∧
    match verify x with
    | .ok payload => p.status = .ok ∧ outBytes ps = payload
    | .error (.protocol reason) => reason = .short ∧ p = ⟨.protocolError, 0x00000001, []⟩ ∧ outBytes ps = []
    | .error (.checksum received expected) =>
      p.status = .checksumError ∧ tagBytesValue received expected = some p.value ∧
      outBytes ps = x.take (x.length - 2)
    | .error (.validation _ _) => False

/-! ## Framing -/

/-- R132: `deframe` is the exact partial inverse of `frame`, whose image is that of R133's tokens. The spec marks the uniqueness
and the image as derived. -/
def Obligations.DeframeIsThePartialInverse : Prop :=
  (∀ p y : List Byte, deframe y = .ok p ↔ frame p = y) ∧
  (∀ y : List Byte, (∀ p, frame p ≠ y) → ∃ reason, deframe y = .error (.protocol reason)) ∧
  (∀ p q : List Byte, frame p = frame q → p = q) ∧
  (∀ y : List Byte, (∃ p, frame p = y) ↔ ∃ tokens : List (List Byte),
    (∀ u ∈ tokens, u = [0x10, 0x10] ∨ ∃ b : Byte, b ≠ 0x10 ∧ u = [b]) ∧
    y = [0x10, 0x02] ++ tokens.flatten ++ [0x10, 0x03])

/-- The definition and the length of R131 and the laws of R134, which the spec marks as derived. -/
def Obligations.FrameLaws : Prop :=
  (∀ p : List Byte, frame p = [0x10, 0x02] ++ stuff p ++ [0x10, 0x03] ∧
    (frame p).length = p.length + p.countP (· == 0x10) + 4) ∧
  stuff [] = [] ∧
  (∀ (b : Byte) (r : List Byte), stuff (b :: r) = (if b = 0x10 then [0x10, 0x10] else [b]) ++ stuff r) ∧
  (∀ p : List Byte, deframe (frame p) = .ok p) ∧
  frame [] = [0x10, 0x02, 0x10, 0x03] ∧ deframe [0x10, 0x02, 0x10, 0x03] = .ok [] ∧
  (∀ p q : List Byte, frame (p ++ q) = [0x10, 0x02] ++ stuff p ++ stuff q ++ [0x10, 0x03])

/-- R144: a packet unpacks to its payload; the example whose tag byte is stuffed. The spec marks the law and the example as
derived. -/
def Obligations.UnpackUndoesPacket : Prop :=
  (∀ p : List Byte, packet p = frame (p ++ checksum p)) ∧
  (∀ y x : List Byte, unpacket y = .ok x ↔ ∃ u, deframe y = .ok u ∧ verify u = .ok x) ∧
  (∀ p : List Byte, unpacket (packet p) = .ok p) ∧
  checksum [0x01, 0x50, 0x0F] = [0x10, 0xB7] ∧
  packet [0x01, 0x50, 0x0F] = [0x10, 0x02, 0x01, 0x50, 0x0F, 0x10, 0x10, 0xB7, 0x10, 0x03]

/-- R142: the transmit commands of a frame emit the frame. The spec marks this as derived. -/
def Obligations.TransmitCommandsEmitTheFrame : Prop :=
  ∀ (s : State) (p : List Byte), ∃ t ps, Runs s (Pseudo.ftxFrame p).expand t ps ∧
    outBytes ps = frame p ∧ (∀ q ∈ ps, q.status = .ok)

/-- R186: transmit commands in any other sequence emit no frame. -/
def Obligations.OnlyBracketedCommandsEmitAFrame : Prop :=
  ∀ (s : State) (is : List Instr), (∀ i ∈ is, i.unit = .transmitter) → ∃ t ps, Runs s is t ps ∧
    ∀ p : List Byte, outBytes ps = frame p → is = (Pseudo.ftxFrame p).expand

/-- R143: the receive commands compute the deframe function: its result, and its error with the reason of the first failing byte
or TRUNCATED. The spec marks this as derived; the reason the function itself carries is the model's (log 9). -/
def Obligations.ReceiverComputesDeframe : Prop :=
  ∀ (s : State) (y : List Byte), s.regs.rxs = .start → ∃ t ps p, ps.length = y.length ∧
    Runs s (y.map .frxByte ++ [.frxEnd]) t (ps ++ [p]) ∧
    match deframe y with
    | .ok payload => (∀ q ∈ ps ++ [p], q.status = .ok) ∧ outBytes ps = payload
    | .error (.protocol reason) =>
      p = ⟨.protocolError, reason.code.setWidth 32, []⟩ ∧
      p.value = ((ps.find? fun q => q.status ≠ .ok).map Response.value).getD 0x00000006
    | .error _ => False

/-- R145, R189: a frame is complete exactly when the receiver is in DONE, and FRX_STAT then reads 4; the raw pair 10 03 shows
nothing, as `packet([0x10, 0x03])` holds it at offsets 3 and 4. The spec marks this as derived. -/
def Obligations.DoneMarksTheCompleteFrame : Prop :=
  (∀ (s : State) (y : List Byte), s.regs.rxs = .start → s.regs.rxwhy = .none → ∃ t ps p,
    Runs s (y.map .frxByte ++ [.frxStat]) t (ps ++ [p]) ∧
    ((∃ u, frame u = y) ↔ t.regs.rxs = .done) ∧ (t.regs.rxs = .done ↔ p = ⟨.ok, 0x00000004, []⟩)) ∧
  packet [0x10, 0x03] = [0x10, 0x02, 0x10, 0x10, 0x03, 0x4D, 0xA8, 0x10, 0x03]

/-- R190: frames received one after another, each closed by FRX_END, are each accepted with their payload; without the FRX_END
the next byte is TRAILING. -/
def Obligations.OneFramePerEnd : Prop :=
  (∀ (s : State) (p q : List Byte), s.regs.rxs = .start → ∃ t ps ends qs ends',
    ps.length = (frame p).length ∧ qs.length = (frame q).length ∧
    Runs s (((frame p).map .frxByte ++ [.frxEnd]) ++ ((frame q).map .frxByte ++ [.frxEnd])) t
      ((ps ++ [ends]) ++ (qs ++ [ends'])) ∧
    acceptedPayload ps ends = some p ∧ acceptedPayload qs ends' = some q) ∧
  (∀ (s : State) (p : List Byte) (b : Byte), s.regs.rxs = .start → ∃ t ps e,
    Runs s ((frame p ++ [b]).map .frxByte) t (ps ++ [e]) ∧ e = ⟨.protocolError, 0x00000005, []⟩)

/-- R144, R185, R191: raw bytes received with the block give the host an accepted payload exactly where they are a packet, and
it is the packet's payload: the receive path computes `unpacket`. The checker is fed the receiver's out bytes in order, here
after the frame's end; the program P2 of 95_test_vectors.md feeds each of them at once. The spec marks R191 as derived. -/
def Obligations.ReceivePathComputesUnpacket : Prop :=
  ∀ (s : State) (y : List Byte), ∃ t result, Receives s y t result ∧
    result = (match unpacket y with
      | .ok payload => some payload
      | .error _ => none) ∧
    t.regs = { s.regs.armChecker with rxs := .start, rxwhy := .none }

/-! ## The codec -/

/-- R80 to R83: the permitted set has exactly the letters, the digits, the space, the kept ones of the 20 punctuation characters
and the six extension characters, each once, so 89 with the default punctuation, and neither a marker nor an excluded character,
whatever the parameters. The spec marks the count as derived. -/
def Obligations.PermittedSetIsThatOfTheRules : Prop :=
  ∀ r : CharRom,
    (∀ c : CodePoint, c ∈ r.permitted ↔
      (0x41 ≤ c.toNat ∧ c.toNat ≤ 0x5A) ∨ (0x61 ≤ c.toNat ∧ c.toNat ≤ 0x7A) ∨
      (0x30 ≤ c.toNat ∧ c.toNat ≤ 0x39) ∨ c = 0x20 ∨
      (c ∈ defaultPunct ∧ r.keepsPunct c = true) ∨
      c ∈ ([0xB7, 0x2022, 0x2500, 0x2501, 0x2588] : List CodePoint) ∨ c = r.oneEighth.codePoint) ∧
    defaultPunct = [0x21, 0x23, 0x24, 0x26, 0x27, 0x28, 0x29, 0x2A, 0x2B, 0x2C,
      0x2D, 0x2E, 0x2F, 0x3A, 0x3B, 0x3C, 0x3D, 0x3E, 0x3F, 0x5C] ∧
    r.oneEighth.codePoint ∈ ([0x2581, 0x2594, 0x258F, 0x2595] : List CodePoint) ∧
    r.permitted.Nodup ∧ r.permitted.length = 69 + r.punctSet.length ∧
    ((∀ c ∈ defaultPunct, r.keepsPunct c = true) → r.permitted.length = 89) ∧
    (∀ c ∈ structuralMarkers ++ excludedPunct, c ∉ r.permitted)

/-- R86: what follows from ROM-1 to ROM-6: `ENC_ROM` is injective, and all but `|P| + 3` bytes decode to U+FFFD. The spec marks
this as derived. -/
def Obligations.RomConsequences : Prop :=
  ∀ r : AdmissibleRom,
    (∀ c d b, r.val.enc c = some b → r.val.enc d = some b → c = d) ∧
    (allBytes.countP fun b => decide (r.val.dec b ∈ r.val.permitted)) = r.val.permitted.length + 3 ∧
    (allBytes.countP fun b => r.val.dec b == replacementChar) = 256 - r.val.permitted.length - 3

/-- R90: the round-trip laws (a) to (d). The spec marks (b), (c) and (d) as derived. -/
def Obligations.CodecRoundTrips : Prop :=
  ∀ r : AdmissibleRom, let rom := r.val
    (∀ s : List CodePoint, (∀ c ∈ s, c ∈ rom.permitted) →
      ∃ bs, encodeText rom s = .ok bs ∧ decodeBytes rom bs = s) ∧
    (∀ bs : List Byte, encodeText rom (decodeBytes rom bs) = .ok bs ↔ ∀ b ∈ bs, canonicalByte rom b) ∧
    (∀ b : Byte, romDec rom b ∈ rom.permitted → ¬ canonicalByte rom b →
      ∃ b', romEnc rom (romDec rom b) = some b' ∧ b' ≠ b) ∧
    (∀ b : Byte, romDec rom b ∉ rom.permitted → romDec rom b = replacementChar ∧
      encodeText rom [romDec rom b] = .error (.validation [replacementChar] rom.permitted)) ∧
    (∀ (s : List CodePoint) (bs : List Byte), encodeText rom s = .ok bs →
      encodeText rom (decodeBytes rom bs) = .ok bs) ∧
    (∀ bs : List Byte, (∃ cs, encodeText rom (decodeBytes rom bs) = .ok cs) ↔
      ∀ b ∈ bs, romDec rom b ∈ rom.permitted) ∧
    (∀ bs cs : List Byte, encodeText rom (decodeBytes rom bs) = .ok cs → decodeBytes rom cs = decodeBytes rom bs)

/-- R93: the commands ENC and DEC compute the whole-sequence functions, and leave no state behind. The spec marks this as
derived. -/
def Obligations.CodecCommandsComputeTheFunctions : Prop :=
  let rom := Config.charRom.val
  (∀ (st : State) (s : List CodePoint), ∃ t ps, Runs st (Pseudo.encStr s).expand t ps ∧ t.regs = st.regs ∧
    ((∀ p ∈ ps, p.status = .ok) → encodeText rom s = .ok (outBytes ps)) ∧
    (¬ (∀ p ∈ ps, p.status = .ok) → encodeText rom s = .error (.validation
      (firstOccurrences ((ps.filter fun p => p.status = .validationError).map fun p => p.value.setWidth 21))
      rom.permitted))) ∧
  (∀ (st : State) (bs : List Byte), ∃ t ps, Runs st (Pseudo.decBytes bs).expand t ps ∧ t.regs = st.regs ∧
    ps.map (fun p => (p.status, p.value)) = (decodeBytes rom bs).map fun c => (.ok, c.setWidth 32))

/-! ## The assembler -/

/-- R70: the assembler takes a source command exactly if its operand is of the format's kind and fits its field, and makes of it
the command with that mnemonic and that operand, whose word decodes to it. -/
def Obligations.AssemblerTakesWhatFits : Prop :=
  (∀ c : SourceCommand, (∃ i, assembleCommand c = some i) ↔ c.wellFormed = true) ∧
  (∀ (c : SourceCommand) (i : Instr), assembleCommand c = some i →
    i.mnemonic = c.mnemonic ∧ decode (encode i) = .ok i ∧
    c.operand = (match c.mnemonic.format with
      | .f0 => .none
      | .fb => .byte i.operandValue
      | .fc => .codePoint i.operandValue))
end

