-- ==== Sys2Proof/Laws/State.lean ====
section
/-! SUPPORT. One lemma per field per update of the state and the registers, so that no later proof unfolds an update. -/

namespace Sys2Proof.Machine

@[simp] theorem State.commit_regs (s : State) (q : Registers × Response) : (s.commit q).regs = q.1 := rfl
@[simp] theorem State.commit_pending (s : State) (q : Registers × Response) : (s.commit q).pending = s.pending := rfl
@[simp] theorem State.commit_response (s : State) (q : Registers × Response) : (s.commit q).response = some q.2 := rfl
@[simp] theorem State.commit_heard (s : State) (q : Registers × Response) : (s.commit q).heard = s.heard := rfl
@[simp] theorem State.commit_observed (s : State) (q : Registers × Response) :
    (s.commit q).observed = s.heard ++ [q.2] := rfl

@[simp] theorem State.hearResponse_regs (s : State) : s.hearResponse.regs = s.regs := rfl
@[simp] theorem State.hearResponse_pending (s : State) : s.hearResponse.pending = s.pending := rfl
@[simp] theorem State.hearResponse_response (s : State) : s.hearResponse.response = none := rfl
@[simp] theorem State.hearResponse_heard (s : State) : s.hearResponse.heard = s.observed := rfl
@[simp] theorem State.hearResponse_observed (s : State) : s.hearResponse.observed = s.observed := by
  simp [State.observed, State.hearResponse]

@[simp] theorem State.acceptCommand_regs (s : State) (l : List HostEvent) : (s.acceptCommand l).regs = s.regs := rfl
@[simp] theorem State.acceptCommand_pending (s : State) (l : List HostEvent) : (s.acceptCommand l).pending = l := rfl
@[simp] theorem State.acceptCommand_response (s : State) (l : List HostEvent) : (s.acceptCommand l).response = none := rfl
@[simp] theorem State.acceptCommand_heard (s : State) (l : List HostEvent) : (s.acceptCommand l).heard = s.observed := rfl

@[simp] theorem State.acceptRead_regs (s : State) (l : List HostEvent) : (s.acceptRead l).regs = s.regs := rfl
@[simp] theorem State.acceptRead_pending (s : State) (l : List HostEvent) : (s.acceptRead l).pending = l := rfl
@[simp] theorem State.acceptRead_response (s : State) (l : List HostEvent) : (s.acceptRead l).response = none := rfl
@[simp] theorem State.acceptRead_heard (s : State) (l : List HostEvent) : (s.acceptRead l).heard = s.observed := rfl

@[simp] theorem State.acceptReset_regs (s : State) (l : List HostEvent) : (s.acceptReset l).regs = Registers.reset := rfl
@[simp] theorem State.acceptReset_pending (s : State) (l : List HostEvent) : (s.acceptReset l).pending = l := rfl
@[simp] theorem State.acceptReset_response (s : State) (l : List HostEvent) : (s.acceptReset l).response = none := rfl
@[simp] theorem State.acceptReset_heard (s : State) (l : List HostEvent) : (s.acceptReset l).heard = s.heard := rfl

@[simp] theorem Registers.armGenerator_crc (r : Registers) : r.armGenerator.crc = 0xFFFF := rfl
@[simp] theorem Registers.armGenerator_vcrc (r : Registers) : r.armGenerator.vcrc = r.vcrc := rfl
@[simp] theorem Registers.armGenerator_vhold0 (r : Registers) : r.armGenerator.vhold0 = r.vhold0 := rfl
@[simp] theorem Registers.armGenerator_vhold1 (r : Registers) : r.armGenerator.vhold1 = r.vhold1 := rfl
@[simp] theorem Registers.armGenerator_vcnt (r : Registers) : r.armGenerator.vcnt = r.vcnt := rfl
@[simp] theorem Registers.armGenerator_rxs (r : Registers) : r.armGenerator.rxs = r.rxs := rfl
@[simp] theorem Registers.armGenerator_rxwhy (r : Registers) : r.armGenerator.rxwhy = r.rxwhy := rfl

@[simp] theorem Registers.armChecker_crc (r : Registers) : r.armChecker.crc = r.crc := rfl
@[simp] theorem Registers.armChecker_vcrc (r : Registers) : r.armChecker.vcrc = 0xFFFF := rfl
@[simp] theorem Registers.armChecker_vhold0 (r : Registers) : r.armChecker.vhold0 = 0 := rfl
@[simp] theorem Registers.armChecker_vhold1 (r : Registers) : r.armChecker.vhold1 = 0 := rfl
@[simp] theorem Registers.armChecker_vcnt (r : Registers) : r.armChecker.vcnt = 0 := rfl
@[simp] theorem Registers.armChecker_rxs (r : Registers) : r.armChecker.rxs = r.rxs := rfl
@[simp] theorem Registers.armChecker_rxwhy (r : Registers) : r.armChecker.rxwhy = r.rxwhy := rfl

@[simp] theorem Registers.armReceiver_crc (r : Registers) : r.armReceiver.crc = r.crc := rfl
@[simp] theorem Registers.armReceiver_vcrc (r : Registers) : r.armReceiver.vcrc = r.vcrc := rfl
@[simp] theorem Registers.armReceiver_vhold0 (r : Registers) : r.armReceiver.vhold0 = r.vhold0 := rfl
@[simp] theorem Registers.armReceiver_vhold1 (r : Registers) : r.armReceiver.vhold1 = r.vhold1 := rfl
@[simp] theorem Registers.armReceiver_vcnt (r : Registers) : r.armReceiver.vcnt = r.vcnt := rfl
@[simp] theorem Registers.armReceiver_rxs (r : Registers) : r.armReceiver.rxs = .start := rfl
@[simp] theorem Registers.armReceiver_rxwhy (r : Registers) : r.armReceiver.rxwhy = .none := rfl

@[simp] theorem Registers.latchError_fst_rxs (r : Registers) (w : RxWhy) : (r.latchError w).1.rxs = .error := rfl
@[simp] theorem Registers.latchError_fst_rxwhy (r : Registers) (w : RxWhy) : (r.latchError w).1.rxwhy = w := rfl
@[simp] theorem Registers.latchError_snd (r : Registers) (w : RxWhy) : (r.latchError w).2 = .raiseLatched w := rfl
@[simp] theorem Registers.receiveTo_fst_rxs (r : Registers) (x : RxState) (o : List Byte) : (r.receiveTo x o).1.rxs = x := rfl
@[simp] theorem Registers.receiveTo_fst_rxwhy (r : Registers) (x : RxState) (o : List Byte) :
    (r.receiveTo x o).1.rxwhy = r.rxwhy := rfl
@[simp] theorem Registers.receiveTo_snd (r : Registers) (x : RxState) (o : List Byte) :
    (r.receiveTo x o).2 = .okWith 0 o := rfl

@[simp] theorem Response.okWith_status (v : Word) (o : List Byte) : (Response.okWith v o).status = .ok := rfl
@[simp] theorem Response.okWith_value (v : Word) (o : List Byte) : (Response.okWith v o).value = v := rfl
@[simp] theorem Response.okWith_out (v : Word) (o : List Byte) : (Response.okWith v o).out = o := rfl
@[simp] theorem Response.raise_status (e : Status) (v : Word) : (Response.raise e v).status = e := rfl
@[simp] theorem Response.raise_value (e : Status) (v : Word) : (Response.raise e v).value = v := rfl
@[simp] theorem Response.raise_out (e : Status) (v : Word) : (Response.raise e v).out = [] := rfl
@[simp] theorem Response.raiseProtocol_status (x : Reason) : (Response.raiseProtocol x).status = .protocolError := rfl
@[simp] theorem Response.raiseProtocol_out (x : Reason) : (Response.raiseProtocol x).out = [] := rfl
@[simp] theorem Response.raiseLatched_status (w : RxWhy) : (Response.raiseLatched w).status = .protocolError := rfl
@[simp] theorem Response.raiseLatched_out (w : RxWhy) : (Response.raiseLatched w).out = [] := rfl

end Sys2Proof.Machine
end

