-- ==== Sys2Proof/Laws/Ops.lean ====
section
/-! SUPPORT. One spec lemma per shared operation: all it can do, cited instead of unfolding it. -/

namespace Sys2Proof.Machine

/-- What each command computes from the registers, read off its meaning: the new registers and the response. -/
def effectOf (i : Instr) (r : Registers) : Registers × Response :=
  match i with
  | .enc cp => (r, encResponse Config.charRom.val cp)
  | .dec b => (r, decResponse Config.charRom.val b)
  | .crcInit => (r.armGenerator, .okWith 0 [])
  | .crcFeed b => ({ r with crc := crcStep r.crc b }, .okWith 0 [])
  | .crcTag => (r, crcTagResponse r)
  | .vfyInit => (r.armChecker, .okWith 0 [])
  | .vfyFeed b => vfyFeed b r
  | .vfyEnd => (r.armChecker, vfyEndResponse r)
  | .ftxBegin => (r, .okWith 0 [dle, stx])
  | .ftxByte b => (r, .okWith 0 (stuffByte b))
  | .ftxEnd => (r, .okWith 0 [dle, etx])
  | .frxInit => (r.armReceiver, .okWith 0 [])
  | .frxByte b => frxByte b r
  | .frxEnd => (r.armReceiver, frxEndResponse r)
  | .frxStat => (r, .okWith (receiverStatusValue r.rxs r.rxwhy) [])

/-- Every meaning is one commit of a result computed from the registers alone. -/
theorem exec_eq_commit (i : Instr) (s : State) : exec i s = .next (s.commit (effectOf i s.regs)) := by
  cases i <;> rfl

/-- All that an illegal word does. -/
theorem illegalCommand_spec {w : Word} {s t : State} (h : illegalCommand w s = .next t) :
    t = { s with response := some ⟨.illegalCommand, w, []⟩ } := by
  cases h; rfl

/-- All that VFY_FEED can do, by the fill of the delay line. -/
theorem vfyFeed_cases {b : Byte} {r t : Registers} {p : Response} (h : vfyFeed b r = (t, p)) :
    (r.vcnt = 0 ∧ t = { r with vhold0 := b, vcnt := 1 } ∧ p = ⟨.ok, 0, []⟩) ∨
    (r.vcnt = 1 ∧ t = { r with vhold1 := b, vcnt := 2 } ∧ p = ⟨.ok, 0, []⟩) ∨
    (r.vcnt = 2 ∧ t = { r with vcrc := crcStep r.vcrc r.vhold0, vhold0 := r.vhold1, vhold1 := b } ∧
      p = ⟨.ok, 0, [r.vhold0]⟩) := by
  unfold vfyFeed at h
  split_ifs at h with h0 h1
  · cases h; exact .inl ⟨h0, rfl, rfl⟩
  · cases h; exact .inr (.inl ⟨h1, rfl, rfl⟩)
  · cases h; exact .inr (.inr ⟨by omega, rfl, rfl⟩)

/-- All that FRX_BYTE can do, by the receiver's state: it goes on, it latches a first error, or it repeats a latched one. -/
theorem frxByte_cases {b : Byte} {r t : Registers} {p : Response} (h : frxByte b r = (t, p)) :
    (∃ x o, (t, p) = r.receiveTo x o ∧
      ((r.rxs = .start ∧ b = dle ∧ x = .hdr ∧ o = []) ∨ (r.rxs = .hdr ∧ b = stx ∧ x = .data ∧ o = []) ∨
       (r.rxs = .data ∧ b = dle ∧ x = .esc ∧ o = []) ∨ (r.rxs = .data ∧ b ≠ dle ∧ x = .data ∧ o = [b]) ∨
       (r.rxs = .esc ∧ b = dle ∧ x = .data ∧ o = [dle]) ∨ (r.rxs = .esc ∧ b = etx ∧ x = .done ∧ o = []))) ∨
    (∃ w, (t, p) = r.latchError w ∧
      ((r.rxs = .start ∧ b ≠ dle ∧ w = .noDle) ∨ (r.rxs = .hdr ∧ b ≠ stx ∧ w = .noStx) ∨
       (r.rxs = .esc ∧ b ≠ dle ∧ b ≠ etx ∧ w = .badEscape) ∨ (r.rxs = .done ∧ w = .trailing))) ∨
    (r.rxs = .error ∧ t = r ∧ p = .raiseLatched r.rxwhy) := by
  unfold frxByte at h
  cases hx : r.rxs <;> simp only [hx] at h <;> (try split_ifs at h) <;> cases h
  all_goals first
    | exact .inl ⟨_, _, rfl, by simp_all⟩
    | exact .inr (.inl ⟨_, rfl, by simp_all⟩)
    | exact .inr (.inr ⟨rfl, rfl, rfl⟩)

/-- All that VFY_END can answer (R113). -/
theorem vfyEndResponse_cases (r : Registers) :
    (r.vcnt < 2 ∧ vfyEndResponse r = .raiseProtocol .short) ∨
    (r.vcnt = 2 ∧ receivedTag r ≠ expectedTag r ∧
      vfyEndResponse r = .raise .checksumError (tagPairValue (receivedTag r) (expectedTag r))) ∨
    (r.vcnt = 2 ∧ receivedTag r = expectedTag r ∧
      vfyEndResponse r = .okWith (tagPairValue (receivedTag r) (expectedTag r)) []) := by
  unfold vfyEndResponse checkerShort tagMismatch
  by_cases h : r.vcnt < 2
  · exact .inl ⟨h, by simp [h]⟩
  · have h2 : r.vcnt = 2 := by omega
    by_cases ht : receivedTag r = expectedTag r
    · exact .inr (.inr ⟨h2, ht, by simp [h2, ht]⟩)
    · exact .inr (.inl ⟨h2, ht, by simp [h2, ht]⟩)

/-- All that FRX_END can answer (R140). -/
theorem frxEndResponse_cases (r : Registers) :
    (r.rxs = .done ∧ frxEndResponse r = .okWith 0 []) ∨
    (r.rxs = .error ∧ frxEndResponse r = .raiseLatched r.rxwhy) ∨
    (r.rxs ≠ .done ∧ r.rxs ≠ .error ∧ frxEndResponse r = .raiseProtocol .truncated) := by
  unfold frxEndResponse
  cases hx : r.rxs <;> simp

/-- All that ENC can answer under a ROM (R91). -/
theorem encResponse_cases (rom : CharRom) (cp : CodePoint) :
    (∃ b, rom.enc cp = some b ∧ encResponse rom cp = .okWith 0 [b]) ∨
    (rom.enc cp = none ∧ encResponse rom cp = .raise .validationError (cp.setWidth 32)) := by
  unfold encResponse romEnc
  cases h : rom.enc cp
  · exact .inr ⟨rfl, rfl⟩
  · exact .inl ⟨_, rfl, rfl⟩

/-- All that one step can do, by the host's oldest event. -/
theorem step_cases {s t : State} (h : step s = .next t) :
    (s.pending = [] ∧ t = s) ∨
    (∃ w later i, s.pending = .command w :: later ∧ decode w = .ok i ∧ exec i (s.acceptCommand later) = .next t) ∨
    (∃ w later e, s.pending = .command w :: later ∧ decode w = .error e ∧
      t = { s.acceptCommand later with response := some ⟨.illegalCommand, w, []⟩ }) ∨
    (∃ later, s.pending = .readResponse :: later ∧ t = s.acceptRead later) ∨
    (∃ later, s.pending = .reset :: later ∧ t = s.acceptReset later) := by
  unfold step at h
  split at h
  · cases h; exact .inl ⟨‹_›, rfl⟩
  · rename_i w later hp
    unfold runWord at h
    split at h
    · exact .inr (.inl ⟨w, later, _, hp, ‹_›, h⟩)
    · exact .inr (.inr (.inl ⟨w, later, _, hp, ‹_›, illegalCommand_spec h⟩))
  · cases h; exact .inr (.inr (.inr (.inl ⟨_, ‹_›, rfl⟩)))
  · cases h; exact .inr (.inr (.inr (.inr ⟨_, ‹_›, rfl⟩)))

end Sys2Proof.Machine
end

