-- ==== Sys2Proof/Laws/PerInstr.lean ====
section
/-! SUPPORT. A family of statements made per command: its word is of its own row of spec/opcode_table.json, whatever the
operand. -/

namespace Sys2Proof.Laws.EncodesInRow

/-- Some row of the opcode table is the command's and covers its word. -/
def Statement (i : Instr) : Prop := ∃ r ∈ opcodeTable, r.mnemonic = i.mnemonic ∧ r.covers (encode i) = true

/-- The word of ENC keeps its opcode bits whatever the code point. -/
theorem codePoint_masked (cp : CodePoint) :
    (0x10000000#32 ||| cp.setWidth 32) &&& 0xFFE00000#32 = 0x10000000#32 := by
  have hm : ∀ j : Fin 32, (0xFFE00000#32).getLsbD j = decide (21 ≤ j.val) := by decide
  have hp : ∀ j : Fin 32, (0x10000000#32).getLsbD j = decide (j.val = 28) := by decide
  apply BitVec.eq_of_getLsbD_eq
  intro i hi
  rw [BitVec.getLsbD_and, BitVec.getLsbD_or, BitVec.getLsbD_setWidth, hm ⟨i, hi⟩, hp ⟨i, hi⟩]
  by_cases h : i < 21
  · simp [show ¬ 21 ≤ i by omega, show i ≠ 28 by omega]
  · simp [show 21 ≤ i by omega]

/-- The rows of the byte commands cover their words, for each of the 256 bytes. -/
theorem byte_covered : ∀ b : Byte,
    (⟨.dec, 0x11000000, 0xFFFFFF00⟩ : OpcodeRow).covers (encode (.dec b)) = true ∧
    (⟨.crcFeed, 0x21000000, 0xFFFFFF00⟩ : OpcodeRow).covers (encode (.crcFeed b)) = true ∧
    (⟨.vfyFeed, 0x31000000, 0xFFFFFF00⟩ : OpcodeRow).covers (encode (.vfyFeed b)) = true ∧
    (⟨.ftxByte, 0x41000000, 0xFFFFFF00⟩ : OpcodeRow).covers (encode (.ftxByte b)) = true ∧
    (⟨.frxByte, 0x51000000, 0xFFFFFF00⟩ : OpcodeRow).covers (encode (.frxByte b)) = true := by
  decide +kernel

/-- The command's row, from its covering the word. -/
theorem of_row {i : Instr} (r : OpcodeRow) (hr : r ∈ opcodeTable) (hm : r.mnemonic = i.mnemonic)
    (hc : r.covers (encode i) = true) : Statement i := ⟨r, hr, hm, hc⟩

theorem enc (cp : CodePoint) : Statement (.enc cp) := by
  refine of_row ⟨.enc, 0x10000000, 0xFFE00000⟩ (by decide) rfl ?_
  have ho : (Mnemonic.enc.opcode.setWidth 32 : Word) <<< 24 = 0x10000000#32 := by decide
  simp only [OpcodeRow.covers, encode, Instr.mnemonic, Instr.operandArea, ho, beq_iff_eq]
  exact codePoint_masked cp
theorem dec (b : Byte) : Statement (.dec b) :=
  of_row ⟨.dec, 0x11000000, 0xFFFFFF00⟩ (by decide) rfl (byte_covered b).1
theorem crcInit : Statement .crcInit := of_row ⟨.crcInit, 0x20000000, 0xFFFFFFFF⟩ (by decide) rfl (by decide)
theorem crcFeed (b : Byte) : Statement (.crcFeed b) :=
  of_row ⟨.crcFeed, 0x21000000, 0xFFFFFF00⟩ (by decide) rfl (byte_covered b).2.1
theorem crcTag : Statement .crcTag := of_row ⟨.crcTag, 0x22000000, 0xFFFFFFFF⟩ (by decide) rfl (by decide)
theorem vfyInit : Statement .vfyInit := of_row ⟨.vfyInit, 0x30000000, 0xFFFFFFFF⟩ (by decide) rfl (by decide)
theorem vfyFeed (b : Byte) : Statement (.vfyFeed b) :=
  of_row ⟨.vfyFeed, 0x31000000, 0xFFFFFF00⟩ (by decide) rfl (byte_covered b).2.2.1
theorem vfyEnd : Statement .vfyEnd := of_row ⟨.vfyEnd, 0x32000000, 0xFFFFFFFF⟩ (by decide) rfl (by decide)
theorem ftxBegin : Statement .ftxBegin := of_row ⟨.ftxBegin, 0x40000000, 0xFFFFFFFF⟩ (by decide) rfl (by decide)
theorem ftxByte (b : Byte) : Statement (.ftxByte b) :=
  of_row ⟨.ftxByte, 0x41000000, 0xFFFFFF00⟩ (by decide) rfl (byte_covered b).2.2.2.1
theorem ftxEnd : Statement .ftxEnd := of_row ⟨.ftxEnd, 0x42000000, 0xFFFFFFFF⟩ (by decide) rfl (by decide)
theorem frxInit : Statement .frxInit := of_row ⟨.frxInit, 0x50000000, 0xFFFFFFFF⟩ (by decide) rfl (by decide)
theorem frxByte (b : Byte) : Statement (.frxByte b) :=
  of_row ⟨.frxByte, 0x51000000, 0xFFFFFF00⟩ (by decide) rfl (byte_covered b).2.2.2.2
theorem frxEnd : Statement .frxEnd := of_row ⟨.frxEnd, 0x52000000, 0xFFFFFFFF⟩ (by decide) rfl (by decide)
theorem frxStat : Statement .frxStat := of_row ⟨.frxStat, 0x53000000, 0xFFFFFFFF⟩ (by decide) rfl (by decide)

end Sys2Proof.Laws.EncodesInRow
end

