-- ==== Sys2Proof/Laws/Runs.lean ====
section
/-! SUPPORT. Runs taken apart, packaged once: a run is its events taken one after another, each by one equation, so that a claim
about a run is a claim about `afterEvents`, and for words about `wordEffects`. -/

namespace Sys2Proof.Machine

/-- One step of a run of any machine. -/
theorem run_succ {M : Host.Core} {k : Nat} {s s' : M.State} (h : M.step s = .next s') :
    M.run (k + 1) s = M.run k s' := by
  simp only [Host.Core.run, h]

/-- What a word, legal or illegal, computes from the registers: the new registers and the response. -/
def wordEffect (w : Word) (r : Registers) : Registers × Response :=
  match decode w with
  | .ok i => effectOf i r
  | .error _ => (r, .raise .illegalCommand w)

theorem wordEffect_legal {w : Word} {i : Instr} (h : decode w = .ok i) (r : Registers) : wordEffect w r = effectOf i r := by
  simp only [wordEffect, h]

theorem wordEffect_illegal {w : Word} {e : DecodeError} (h : decode w = .error e) (r : Registers) :
    wordEffect w r = (r, .raise .illegalCommand w) := by
  simp only [wordEffect, h]

/-- Executing a word is one commit of its effect. -/
theorem runWord_eq_commit (w : Word) (s : State) : runWord w s = .next (s.commit (wordEffect w s.regs)) := by
  unfold runWord wordEffect
  cases decode w with
  | ok i => exact exec_eq_commit i s
  | error e => rfl

/-- What one event of the host does, besides that it is no longer to come. -/
def afterEvent (s : State) : HostEvent → State
  | .command w => s.hearResponse.commit (wordEffect w s.regs)
  | .readResponse => s.hearResponse
  | .reset => { s with regs := Registers.reset, response := none }

/-- What a list of events does, one after another. -/
def afterEvents (es : List HostEvent) (s : State) : State := es.foldl afterEvent s

@[simp] theorem afterEvents_nil (s : State) : afterEvents [] s = s := rfl
@[simp] theorem afterEvents_cons (e : HostEvent) (es : List HostEvent) (s : State) :
    afterEvents (e :: es) s = afterEvents es (afterEvent s e) := rfl
theorem afterEvents_append (es fs : List HostEvent) (s : State) :
    afterEvents (es ++ fs) s = afterEvents fs (afterEvents es s) := List.foldl_append

/-- Events add to what has been heard, and nothing else they do depends on it or on the events to come. -/
theorem afterEvents_heard (es : List HostEvent) (s : State) (h : List Response) (l : List HostEvent) :
    afterEvents es { s with heard := h ++ s.heard, pending := l } =
      { afterEvents es s with heard := h ++ (afterEvents es s).heard, pending := l } := by
  induction es generalizing s with
  | nil => rfl
  | cons e es ih =>
    rw [afterEvents_cons, afterEvents_cons, ← ih (afterEvent s e)]
    congr 1
    cases e <;> simp [afterEvent, State.hearResponse, State.commit, State.observed]

/-- All that a step with an event to come does. -/
theorem step_event (e : HostEvent) (later : List HostEvent) (s : State) :
    step { s with pending := e :: later } = .next { afterEvent s e with pending := later } := by
  cases e with
  | command w => exact runWord_eq_commit w _
  | readResponse => rfl
  | reset => rfl

/-- As many steps as there are events take them all. -/
theorem run_events (es : List HostEvent) (s : State) :
    Host.Core.run Sys2Proof.core es.length { s with pending := es } = .next { afterEvents es s with pending := [] } := by
  induction es generalizing s with
  | nil => rfl
  | cons e es ih =>
    exact (run_succ (M := Sys2Proof.core) (step_event e es s)).trans (ih (afterEvent s e))

/-- A run ends in the effect of its events, and its responses are what that adds to the observation. -/
theorem runsEvents_iff (s : State) (es : List HostEvent) (t : State) (ps : List Response) :
    RunsEvents s es t ps ↔
      t = { afterEvents es s.hearResponse with pending := [] } ∧ t.observed = s.observed ++ ps := by
  unfold RunsEvents State.await
  rw [run_events es s.hearResponse]
  constructor
  · rintro ⟨h, -, ho⟩; cases h; exact ⟨rfl, ho⟩
  · rintro ⟨rfl, ho⟩; exact ⟨rfl, rfl, ho⟩

/-- The registers and the responses that a list of words gives, one after another. -/
def wordEffects : List Word → Registers → Registers × List Response
  | [], r => (r, [])
  | w :: ws, r =>
    let q := wordEffect w r
    let rest := wordEffects ws q.1
    (rest.1, q.2 :: rest.2)

@[simp] theorem wordEffects_nil (r : Registers) : wordEffects [] r = (r, []) := rfl

@[simp] theorem wordEffects_cons (w : Word) (ws : List Word) (r : Registers) :
    wordEffects (w :: ws) r =
      ((wordEffects ws (wordEffect w r).1).1, (wordEffect w r).2 :: (wordEffects ws (wordEffect w r).1).2) := rfl

/-- One response for each word. -/
theorem wordEffects_length (ws : List Word) (r : Registers) : (wordEffects ws r).2.length = ws.length := by
  induction ws generalizing r with
  | nil => rfl
  | cons w ws ih => simp [ih]

/-- The effects of two lists of words, one after the other. -/
theorem wordEffects_append (ws vs : List Word) (r : Registers) :
    wordEffects (ws ++ vs) r =
      ((wordEffects vs (wordEffects ws r).1).1, (wordEffects ws r).2 ++ (wordEffects vs (wordEffects ws r).1).2) := by
  induction ws generalizing r with
  | nil => simp
  | cons w ws ih => simp [ih]

/-- The effect of words as events: their registers, and their responses after those the host could observe. -/
theorem afterEvents_words (ws : List Word) (s : State) :
    (afterEvents (ws.map .command) s).regs = (wordEffects ws s.regs).1 ∧
    (afterEvents (ws.map .command) s).observed = s.observed ++ (wordEffects ws s.regs).2 := by
  induction ws generalizing s with
  | nil => simp
  | cons w ws ih =>
    obtain ⟨h1, h2⟩ := ih (s.hearResponse.commit (wordEffect w s.regs))
    refine ⟨h1, ?_⟩
    simpa [afterEvent] using h2

/-- Every list of words has a run, and its end and its responses are the words' effects. -/
theorem runsWords_effects (ws : List Word) (s : State) :
    ∃ t, RunsWords s ws t (wordEffects ws s.regs).2 ∧ t.regs = (wordEffects ws s.regs).1 := by
  obtain ⟨h1, h2⟩ := afterEvents_words ws s.hearResponse
  refine ⟨_, (runsEvents_iff _ _ _ _).2 ⟨rfl, ?_⟩, h1⟩
  exact h2.trans (by simp)

/-- The registers and the responses that a list of commands gives, one after another. -/
def effectsOf : List Instr → Registers → Registers × List Response
  | [], r => (r, [])
  | i :: is, r =>
    let q := effectOf i r
    let rest := effectsOf is q.1
    (rest.1, q.2 :: rest.2)

@[simp] theorem effectsOf_nil (r : Registers) : effectsOf [] r = (r, []) := rfl

@[simp] theorem effectsOf_cons (i : Instr) (is : List Instr) (r : Registers) :
    effectsOf (i :: is) r =
      ((effectsOf is (effectOf i r).1).1, (effectOf i r).2 :: (effectsOf is (effectOf i r).1).2) := rfl

/-- The effects of two lists of commands, one after the other. -/
theorem effectsOf_append (is js : List Instr) (r : Registers) :
    effectsOf (is ++ js) r =
      ((effectsOf js (effectsOf is r).1).1, (effectsOf is r).2 ++ (effectsOf js (effectsOf is r).1).2) := by
  induction is generalizing r with
  | nil => simp
  | cons i is ih => simp [ih]

/-- Commands whose words decode to them have the effects of their words. -/
theorem wordEffects_encode {is : List Instr} (hd : ∀ i ∈ is, decode (encode i) = .ok i) (r : Registers) :
    wordEffects (is.map encode) r = effectsOf is r := by
  induction is generalizing r with
  | nil => rfl
  | cons i is ih =>
    have ih := ih (fun j hj => hd j (List.mem_cons_of_mem _ hj))
    simp only [List.map_cons, wordEffects_cons, effectsOf_cons, wordEffect_legal (hd i List.mem_cons_self), ih]

/-- Every list of commands has a run, and its end and its responses are the commands' effects: claims about runs reduce to
claims about `effectsOf`. -/
theorem runs_effects {is : List Instr} (hd : ∀ i ∈ is, decode (encode i) = .ok i) (s : State) :
    ∃ t, Runs s is t (effectsOf is s.regs).2 ∧ t.regs = (effectsOf is s.regs).1 := by
  have h := runsWords_effects (is.map encode) s
  rwa [wordEffects_encode hd] at h

end Sys2Proof.Machine
end

