-- ==== Sys2Proof/Tests/Slice0.lean ====
section
/-! SUPPORT. Tests of the model's own work: ill-formed source commands refused, every command's word decoded, one-step vectors of
spec/95_test_vectors.md (named by its sections), and for every statement with hypotheses a state and operands that meet them. -/

namespace Sys2Proof.Tests

open Sys2Proof.Machine

/-- A reset machine with other registers. -/
def withRegs (r : Registers) : State := { State.reset with regs := r }

/-- The machine of 95 section 1.3 after `CRC_INIT` and the three feeds of `01 50 80`. -/
def pingFed : State := withRegs { Registers.reset with crc := 0x3410 }

/-- The checker before the last step of 95 section 2.4's ping row. -/
def pingHeld (last : Byte) : State :=
  withRegs { Registers.reset with vcrc := 0x3410, vhold0 := 0xEF, vhold1 := last, vcnt := 2 }

/-- The receiver in a state. -/
def receiving (x : RxState) (why : RxWhy) : State := withRegs { Registers.reset with rxs := x, rxwhy := why }

/-- The registers of a next state. -/
def regsOf : Host.Outcome State Fault Refusal → Option Registers
  | .next s => some s.regs
  | _ => none

/-- The response of a next state. -/
def answerOf : Host.Outcome State Fault Refusal → Option Response
  | .next s => s.response
  | _ => none

/-! ## WellFormed: one ill-formed source command for each check -/

theorem test_byte_too_large_refused : (SourceCommand.mk .crcFeed (.byte 0x100)).wellFormed = false := by decide
theorem test_codePoint_too_large_refused : (SourceCommand.mk .enc (.codePoint 0x200000)).wellFormed = false := by decide
theorem test_missing_operand_refused : (SourceCommand.mk .dec .none).wellFormed = false := by decide
theorem test_extra_operand_refused : (SourceCommand.mk .crcInit (.byte 0x00)).wellFormed = false := by decide
theorem test_byte_for_codePoint_refused : (SourceCommand.mk .enc (.byte 0x41)).wellFormed = false := by decide
theorem test_codePoint_for_byte_refused : (SourceCommand.mk .ftxByte (.codePoint 0x41)).wellFormed = false := by decide
theorem test_largest_operands_taken :
    (SourceCommand.mk .crcFeed (.byte 0xFF)).wellFormed = true ∧
    (SourceCommand.mk .enc (.codePoint 0x1FFFFF)).wellFormed = true := by decide
theorem test_every_largest_command_fits :
    (Instr.enc 0x1FFFFF).wellFormed = true ∧ (Instr.frxByte 0xFF).wellFormed = true ∧ Instr.vfyEnd.wellFormed = true := by decide

/-! ## Decode: every row's word as 95 writes it, and the illegal words of 95 section 2.1 -/

theorem test_decode_enc : decode 0x10002588 = .ok (.enc 0x2588) ∧ decode 0x101FFFFF = .ok (.enc 0x1FFFFF) := by decide
theorem test_decode_dec : decode 0x110000FF = .ok (.dec 0xFF) := by decide
theorem test_decode_crcInit : decode 0x20000000 = .ok .crcInit := by decide
theorem test_decode_crcFeed : decode 0x21000050 = .ok (.crcFeed 0x50) := by decide
theorem test_decode_crcTag : decode 0x22000000 = .ok .crcTag := by decide
theorem test_decode_vfyInit : decode 0x30000000 = .ok .vfyInit := by decide
theorem test_decode_vfyFeed : decode 0x3100000F = .ok (.vfyFeed 0x0F) := by decide
theorem test_decode_vfyEnd : decode 0x32000000 = .ok .vfyEnd := by decide
theorem test_decode_ftxBegin : decode 0x40000000 = .ok .ftxBegin := by decide
theorem test_decode_ftxByte : decode 0x410000EF = .ok (.ftxByte 0xEF) := by decide
theorem test_decode_ftxEnd : decode 0x42000000 = .ok .ftxEnd := by decide
theorem test_decode_frxInit : decode 0x50000000 = .ok .frxInit := by decide
theorem test_decode_frxByte : decode 0x510000B7 = .ok (.frxByte 0xB7) := by decide
theorem test_decode_frxEnd : decode 0x52000000 = .ok .frxEnd := by decide
theorem test_decode_frxStat : decode 0x53000000 = .ok .frxStat := by decide
theorem test_decode_illegal_words :
    [0x00000000, 0xFF000000, 0x20000001, 0x21000100, 0x11000100, 0x53000010, 0x10200000, 0x22000001, 0x52000001].all
      (fun w => !legalWord w && (decode w).toOption.isNone) = true := by decide
theorem test_illegal_word_keeps_the_registers :
    regsOf (runWord 0x22000001 pingFed) = some pingFed.regs ∧
    answerOf (runWord 0x22000001 pingFed) = some ⟨.illegalCommand, 0x22000001, []⟩ := by decide
theorem test_decodeTableWord : decodeTableWord 32 0x31000050 = some (.vfyFeed 0x50) := by decide
theorem test_fetch_word_runs :
    answerOf (step (State.reset.withFetchWord 32 0x42000000)) = some ⟨.ok, 0, [0x10, 0x03]⟩ := by decide

/-! ## One step each: 95 sections 2.2 to 2.7 -/

theorem test_enc_bullet : encResponse romRef 0x2022 = ⟨.ok, 0, [0x81]⟩ := by decide +kernel
theorem test_enc_marker : encResponse romRef 0x7E = ⟨.validationError, 0x7E, []⟩ := by decide +kernel
theorem test_dec_third_oneEighth : decResponse romRef 0x87 = ⟨.ok, 0x2581, []⟩ := by decide +kernel
theorem test_dec_unmapped : decResponse romRef 0x5F = ⟨.ok, 0xFFFD, []⟩ := by decide +kernel
theorem test_crcInit : regsOf (exec .crcInit pingFed) = some Registers.reset := by decide
theorem test_crcFeed_steps :
    regsOf (exec (.crcFeed 0x80) (withRegs { Registers.reset with crc := 0xBBE5 })) = some pingFed.regs := by decide +kernel
theorem test_crcFeed_dle : crcStep 0xFFFF 0x10 = 0x1F06 ∧ crcStep 0x0000 0x50 = 0x5285 := by decide +kernel
theorem test_crcTag_ping : answerOf (exec .crcTag pingFed) = some ⟨.ok, 0xCBEF, [0xEF, 0xCB]⟩ := by decide
theorem test_vfyInit : regsOf (exec .vfyInit (pingHeld 0xCB)) = some Registers.reset := by decide
theorem test_vfyFeed_full_line :
    (exec (.vfyFeed 0x0F) (withRegs { Registers.reset with vhold0 := 0x01, vhold1 := 0x50, vcnt := 2 }) |> regsOf) =
      some { Registers.reset with vcrc := 0x1E0E, vhold0 := 0x50, vhold1 := 0x0F, vcnt := 2 } := by decide +kernel
theorem test_vfyFeed_first :
    regsOf (exec (.vfyFeed 0x01) State.reset) = some { Registers.reset with vhold0 := 0x01, vcnt := 1 } := by decide
theorem test_vfyEnd_ok : answerOf (exec .vfyEnd (pingHeld 0xCB)) = some ⟨.ok, 0xCBEFCBEF, []⟩ := by decide
theorem test_vfyEnd_bad_tag : answerOf (exec .vfyEnd (pingHeld 0xCA)) = some ⟨.checksumError, 0xCBEFCAEF, []⟩ := by decide
theorem test_ftxBegin : answerOf (exec .ftxBegin State.reset) = some ⟨.ok, 0, [0x10, 0x02]⟩ := by decide
theorem test_ftxByte_dle : answerOf (exec (.ftxByte 0x10) State.reset) = some ⟨.ok, 0, [0x10, 0x10]⟩ := by decide
theorem test_ftxByte_etx : answerOf (exec (.ftxByte 0x03) State.reset) = some ⟨.ok, 0, [0x03]⟩ := by decide
theorem test_ftxEnd : answerOf (exec .ftxEnd State.reset) = some ⟨.ok, 0, [0x10, 0x03]⟩ := by decide
theorem test_frxInit : regsOf (exec .frxInit (receiving .error .badEscape)) = some Registers.reset := by decide
theorem test_frxByte_badEscape :
    exec (.frxByte 0x02) (receiving .esc .none) =
      .next { receiving .error .badEscape with response := some ⟨.protocolError, 4, []⟩ } := rfl
theorem test_frxByte_literal_dle :
    exec (.frxByte 0x10) (receiving .esc .none) =
      .next { receiving .data .none with response := some ⟨.ok, 0, [0x10]⟩ } := rfl
theorem test_frxEnd_truncated :
    exec .frxEnd (receiving .data .none) = .next { State.reset with response := some ⟨.protocolError, 6, []⟩ } := rfl
theorem test_frxEnd_latched :
    exec .frxEnd (receiving .error .trailing) = .next { State.reset with response := some ⟨.protocolError, 5, []⟩ } := rfl
theorem test_frxStat : answerOf (exec .frxStat (receiving .error .noDle)) = some ⟨.ok, 0x27, []⟩ := by decide

/-! ## Runs (R194): with an illegal word, and with a reset that is listed -/

/-- 95 section 2.1: the illegal word leaves `crc` to the word after it. -/
theorem test_run_with_illegal_word :
    RunsWords pingFed [0x22000001, 0x22000000] { pingFed with
      response := some ⟨.ok, 0xCBEF, [0xEF, 0xCB]⟩, heard := [⟨.illegalCommand, 0x22000001, []⟩] }
      [⟨.illegalCommand, 0x22000001, []⟩, ⟨.ok, 0xCBEF, [0xEF, 0xCB]⟩] := ⟨rfl, rfl, rfl⟩
/-- R180, R181: the tag not yet read is lost, the response read before is kept, and the receiver is in START. -/
theorem test_run_with_reset :
    RunsEvents pingFed [.command 0x51000041, .readResponse, .command 0x22000000, .reset, .command 0x53000000]
      { State.reset with response := some ⟨.ok, 0, []⟩, heard := [⟨.protocolError, 2, []⟩] }
      [⟨.protocolError, 2, []⟩, ⟨.ok, 0, []⟩] := ⟨rfl, rfl, rfl⟩

/-! ## Whole sequences: 95 sections 1.3 and 2.3 -/

theorem test_packet_ping : packet [0x01, 0x50, 0x80] = [0x10, 0x02, 0x01, 0x50, 0x80, 0xEF, 0xCB, 0x10, 0x03] := by decide +kernel
theorem test_checksum_with_dle : checksum [0x97] = [0x4E, 0x10] ∧ checksum [0xDD] = [0x10, 0xFD] := by decide +kernel
theorem test_verify_single_bit :
    verify [0x01, 0x50, 0x80, 0xEE, 0xCB] = .error (.checksum [0xEE, 0xCB] [0xEF, 0xCB]) := by decide +kernel
theorem test_deframe_trailing : deframe [0x10, 0x02, 0x10, 0x03, 0x00] = .error (.protocol .trailing) := by rfl

/-! ## The assembler: lines of 95 -/

theorem test_line_byte_comment :
    assembleLine ['C', 'R', 'C', '_', 'F', 'E', 'E', 'D', ' ', '0', 'x', '5', '0', ' ', ';', 'x'] = some [.crcFeed 0x50] := by
  decide +kernel
theorem test_line_codePoint :
    assembleLine ['E', 'N', 'C', ' ', 'U', '+', '2', '5', '8', '8'] = some [.enc 0x2588] := by decide +kernel
theorem test_line_codePoint_refused :
    assembleLine ['E', 'N', 'C', ' ', 'U', '+', '2', '0', '0', '0', '0', '0'] = none := by decide +kernel
/-- A `;` between quotes is a character (log 10), and a comment starts after them. -/
theorem test_line_quoted_semicolon :
    assembleLine ['E', 'N', 'C', ' ', '\'', ';', '\'', ' ', ';', 'x'] = some [.enc 0x3B] ∧
    assembleLine ['E', 'N', 'C', '_', 'S', 'T', 'R', ' ', '"', 'a', ';', '"'] = some [.enc 0x61, .enc 0x3B] := by
  decide +kernel
theorem test_line_pseudo :
    assemble [['C', 'R', 'C', '_', 'O', 'F', ' ', '0', 'x', '0', '1', ',', ' ', '0', 'x', '5', '0']] =
      some [0x20000000, 0x21000001, 0x21000050, 0x22000000] := by decide +kernel
theorem test_line_string :
    assembleLine ['E', 'N', 'C', '_', 'S', 'T', 'R', ' ', '"', 'H', 'i', '"'] = some [.enc 0x48, .enc 0x69] := by decide +kernel

/-! ## Witnesses: a state and operands for the hypotheses of each statement that has some -/

theorem letterA_permitted (r : CharRom) : (0x41 : CodePoint) ∈ r.permitted := by
  unfold CharRom.permitted
  simp only [List.mem_append]
  exact .inl (.inl (.inl (.inl (by decide))))

theorem quote_not_permitted (r : CharRom) : (0x22 : CodePoint) ∉ r.permitted := by
  unfold CharRom.permitted CharRom.punctSet CharRom.extension
  simp only [List.mem_append, List.mem_filter, not_or, not_and]
  refine ⟨⟨⟨⟨by decide, by decide⟩, by decide⟩, fun h => absurd h (by decide)⟩, ?_⟩
  cases r.oneEighth <;> decide

theorem ff_decodes_outside (r : AdmissibleRom) : romDec r.val 0xFF ∉ r.val.permitted := by
  rw [show romDec r.val 0xFF = replacementChar from r.property.rom7]
  unfold CharRom.permitted CharRom.punctSet CharRom.extension
  simp only [List.mem_append, List.mem_filter, not_or, not_and]
  refine ⟨⟨⟨⟨by decide, by decide⟩, by decide⟩, fun h => absurd h (by decide)⟩, ?_⟩
  cases r.val.oneEighth <;> decide

/-- Permitted and not; every corner range at its bounds; reserved bits at both ends of the field. -/
theorem witness_EncAnswersByPermittedSet :
    (0x41 : CodePoint) ∈ Config.charRom.val.permitted ∧ (0x22 : CodePoint) ∉ Config.charRom.val.permitted ∧
    (0x7E : CodePoint) ∈ structuralMarkers ++ excludedPunct ++ [replacementChar, 0] ∧
    ((0x1F : CodePoint).toNat < 0x20 ∧ 0x7F ≤ (0x7F : CodePoint).toNat ∧ (0x9F : CodePoint).toNat < 0xA0 ∧
      0xD800 ≤ (0xD800 : CodePoint).toNat ∧ (0xDFFF : CodePoint).toNat ≤ 0xDFFF ∧ 0x10FFFF < (0x110000 : CodePoint).toNat) ∧
    ((0x10200000 : Word).extractLsb' 24 8 = 0x10 ∧ (0x10200000 : Word).extractLsb' 21 3 ≠ 0) ∧
    ((0x10800000 : Word).extractLsb' 24 8 = 0x10 ∧ (0x10800000 : Word).extractLsb' 21 3 ≠ 0) :=
  ⟨letterA_permitted _, quote_not_permitted _, by decide⟩
theorem witness_DecAnswersEveryByte :
    (0x11000100 : Word).extractLsb' 24 8 = 0x11 ∧ (0x11000100 : Word).extractLsb' 8 16 ≠ 0 ∧
    romDec Config.charRom.val 0xFF ∉ Config.charRom.val.permitted := ⟨by decide, by decide, ff_decodes_outside _⟩
theorem witness_CrcInitStartsAChecksum :
    ((0x20000001 : Word).extractLsb' 24 8 = 0x20 ∧ (0x20000001 : Word).extractLsb' 0 24 ≠ 0) ∧
    exec .crcInit pingFed = .next { State.reset with response := some ⟨.ok, 0, []⟩ } := ⟨by decide, rfl⟩
theorem witness_CrcFeedAddsOneByte :
    (0x21000100 : Word).extractLsb' 24 8 = 0x21 ∧ (0x21000100 : Word).extractLsb' 8 16 ≠ 0 ∧
    (0x21800000 : Word).extractLsb' 24 8 = 0x21 ∧ (0x21800000 : Word).extractLsb' 8 16 ≠ 0 := by decide
theorem witness_CrcTagReadsTheTag :
    (0x22000001 : Word).extractLsb' 24 8 = 0x22 ∧ (0x22000001 : Word).extractLsb' 0 24 ≠ 0 ∧
    State.reset.regs.crc = 0xFFFF ∧ pingFed.regs.crc = 0x3410 := by decide
theorem witness_VfyInitArmsTheChecker :
    ((0x30800000 : Word).extractLsb' 24 8 = 0x30 ∧ (0x30800000 : Word).extractLsb' 0 24 ≠ 0) ∧
    exec .vfyInit (pingHeld 0xCB) = .next { State.reset with response := some ⟨.ok, 0, []⟩ } := ⟨by decide, rfl⟩
theorem witness_VfyFeedShiftsTheDelayLine :
    ((0x31000100 : Word).extractLsb' 24 8 = 0x31 ∧ (0x31000100 : Word).extractLsb' 8 16 ≠ 0) ∧
    State.reset.regs.vcnt = 0 ∧ (withRegs { Registers.reset with vhold0 := 0x01, vcnt := 1 }).regs.vcnt = 1 ∧
    (pingHeld 0xCB).regs.vcnt = 2 := by decide
theorem witness_VfyEndReportsAndRearms :
    ((0x32000001 : Word).extractLsb' 24 8 = 0x32 ∧ (0x32000001 : Word).extractLsb' 0 24 ≠ 0) ∧
    (answerOf (exec .vfyEnd (pingHeld 0xCB))).map Response.status = some .ok ∧
    (withRegs { Registers.reset with vcnt := 2 }).regs.vcrc = 0xFFFF ∧
    ((pingHeld 0xCB).regs.vcnt = 2 ∧ (pingHeld 0xCB).regs.vhold0 = 0xEF ∧ (pingHeld 0xCB).regs.vcrc = 0x3410 ∧
      (pingHeld 0xCB).regs.vhold1 = 0xCB ∧ (pingHeld 0xCA).regs.vhold1 = 0xCA) := by decide
/-- The checker's three cases at the bounds of `vcnt`, and the empty payload's state. -/
theorem witness_VfyEndReportsAndRearms_cases :
    State.reset.regs.vcnt < 2 ∧ (withRegs { Registers.reset with vhold0 := 0x01, vcnt := 1 }).regs.vcnt < 2 ∧
    ((withRegs { Registers.reset with vcnt := 2 }).regs.vcnt = 2 ∧
      (withRegs { Registers.reset with vcnt := 2 }).regs.vhold0 = 0 ∧
      (withRegs { Registers.reset with vcnt := 2 }).regs.vhold1 = 0) := by decide
theorem witness_FtxBeginEmitsTheOpening :
    (0x40000001 : Word).extractLsb' 24 8 = 0x40 ∧ (0x40000001 : Word).extractLsb' 0 24 ≠ 0 := by decide
theorem witness_FtxByteStuffsDle :
    (0x0F : Byte) ≠ 0x10 ∧ (0x11 : Byte) ≠ 0x10 ∧
    (0x41000100 : Word).extractLsb' 24 8 = 0x41 ∧ (0x41000100 : Word).extractLsb' 8 16 ≠ 0 := by decide
theorem witness_FtxEndEmitsTheClosing :
    (0x42000001 : Word).extractLsb' 24 8 = 0x42 ∧ (0x42000001 : Word).extractLsb' 0 24 ≠ 0 := by decide
theorem witness_FrxInitArmsTheReceiver :
    ((0x50000001 : Word).extractLsb' 24 8 = 0x50 ∧ (0x50000001 : Word).extractLsb' 0 24 ≠ 0) ∧
    exec .frxInit (receiving .error .badEscape) = .next { State.reset with response := some ⟨.ok, 0, []⟩ } := ⟨by decide, rfl⟩
theorem witness_FrxByteStepsTheReceiver :
    (0x51000100 : Word).extractLsb' 24 8 = 0x51 ∧ (0x51000100 : Word).extractLsb' 8 16 ≠ 0 ∧
    State.reset.regs.rxs = .start := by decide
theorem witness_FrxEndReportsAndRearms :
    ((0x52000001 : Word).extractLsb' 24 8 = 0x52 ∧ (0x52000001 : Word).extractLsb' 0 24 ≠ 0) ∧
    State.reset.regs.rxs = .start ∧ (receiving .done .none).regs.rxs = .done ∧
    exec .frxEnd (receiving .done .none) = .next { State.reset with response := some ⟨.ok, 0, []⟩ } :=
  ⟨by decide, rfl, rfl, rfl⟩
theorem witness_FrxStatReadsTheReceiver :
    (0x53000010 : Word).extractLsb' 24 8 = 0x53 ∧ (0x53000010 : Word).extractLsb' 0 24 ≠ 0 ∧
    State.reset.regs.rxs = .start ∧ State.reset.regs.rxwhy = .none := by decide
/-- Illegal by opcode at both ends of every unassigned range, and by a reserved bit. -/
theorem witness_IllegalWordsAreAnsweredAndChangeNothing :
    [0x00, 0x0F, 0x12, 0x1F, 0x23, 0x2F, 0x33, 0x3F, 0x43, 0x4F, 0x54, 0xFF].all (fun op =>
      !legalWord (BitVec.ofNat 32 op <<< 24) && (mnemonicOf (opField (BitVec.ofNat 32 op <<< 24))).isNone) = true ∧
    legalWord 0x20000001 = false ∧ decode 0x20000000 = .ok .crcInit := by decide +kernel
theorem witness_DecodeOfEncodeIsTheCommand : (Instr.enc 0x1FFFFF).wellFormed = true := by decide
theorem witness_EncodeOfDecodeIsTheWord : decode 0x510000B7 = .ok (.frxByte 0xB7) := by decide
theorem witness_OpcodeRowsDoNotOverlap :
    (⟨.enc, 0x10000000, 0xFFE00000⟩ : OpcodeRow) ∈ opcodeTable ∧
    (⟨.enc, 0x10000000, 0xFFE00000⟩ : OpcodeRow).covers 0x101FFFFF = true := by decide
theorem witness_StepRunsTheDecodedCommand : decode 0x22000000 = .ok .crcTag := by decide
theorem witness_EveryWordGetsOneResponse : legalWord 0x22000001 = false ∧ legalWord 0x00000000 = false := by decide
theorem witness_BlockIsIdleBetweenCommands : pingFed.pending = [] := rfl
theorem witness_ResetGivesEveryRegisterItsValue :
    exec .crcInit pingFed = .next { State.reset with response := some ⟨.ok, 0, []⟩ } ∧
    exec .vfyInit (pingHeld 0xCB) = .next { State.reset with response := some ⟨.ok, 0, []⟩ } ∧
    exec .frxInit (receiving .esc .none) = .next { State.reset with response := some ⟨.ok, 0, []⟩ } := ⟨rfl, rfl, rfl⟩
theorem witness_StepKeepsTheInvariant :
    ((receiving .esc .none).withFetchWord 32 0x51000002).wf ∧
    step ((receiving .esc .none).withFetchWord 32 0x51000002) =
      .next { receiving .error .badEscape with response := some ⟨.protocolError, 4, []⟩ } := ⟨by decide, rfl⟩
/-- A row of R162 for each command that can report an error, and an illegal word. -/
theorem witness_OnlyTheListedErrorsAreReported :
    errorRow (.enc 0x22) Registers.reset (.raise .validationError 0x22) Registers.reset ∧
    errorRow .vfyEnd Registers.reset (.raise .protocolError 0x01) Registers.reset ∧
    errorRow (.frxByte 0x41) Registers.reset (.raise .protocolError 0x02) (receiving .error .noDle).regs ∧
    errorRow .frxEnd Registers.reset (.raise .protocolError 0x06) Registers.reset ∧
    decode 0x20000001 = .error (.reservedBitSet .crcInit) :=
  ⟨⟨quote_not_permitted _, rfl, rfl⟩, ⟨rfl, .inl ⟨by decide, rfl⟩⟩, .inl ⟨rfl, by decide, rfl, rfl⟩,
   ⟨rfl, .inr ⟨by decide, by decide, rfl⟩⟩, by decide⟩
theorem witness_SevenCommandsChangeNoRegister :
    Instr.crcTag.mnemonic = .crcTag ∧
    exec .crcTag pingFed = .next { pingFed with response := some ⟨.ok, 0xCBEF, [0xEF, 0xCB]⟩ } := ⟨rfl, rfl⟩
theorem witness_CommandsLeaveOtherUnitsAlone :
    exec .frxEnd pingFed = .next { pingFed with response := some ⟨.protocolError, 6, []⟩ } ∧
    BlockUnit.generator ≠ Instr.frxEnd.unit := ⟨rfl, by decide⟩
theorem witness_ResponsesDependOnOneUnit :
    State.reset.regs.agreeOn Instr.frxStat.unit pingFed.regs ∧
    exec .frxStat pingFed = .next { pingFed with response := some ⟨.ok, 0, []⟩ } := ⟨⟨rfl, rfl⟩, rfl⟩
theorem witness_CommandsOfDifferentUnitsCommute :
    (Instr.frxByte 0x10).unit ≠ (Instr.vfyFeed 0x10).unit := by decide
theorem witness_ErrorIsLeftOnlyByRearming :
    (receiving .error .trailing).regs.rxs = .error ∧
    step { receiving .error .trailing with pending := [.reset] } = .next State.reset ∧
    step ((receiving .error .trailing).withFetchWord 32 0x52000000) =
      .next { State.reset with response := some ⟨.protocolError, 5, []⟩ } := ⟨rfl, rfl, rfl⟩
theorem witness_CrcComposesAndIsLinear : [0x01, 0x50].length = ([0x00, 0xFF] : List Byte).length := rfl
/-- A payload bit and a tag bit, first and last of their ranges. -/
theorem witness_SingleBitErrorsAreDetected :
    0 < ([0x01] ++ checksum [0x01]).length ∧ 2 < ([0x01] ++ checksum [0x01]).length ∧ 0 < 8 ∧ 7 < 8 := by decide
theorem witness_CheckerHoldsBackTheLastTwoBytes :
    (Instr.vfyInit = .vfyInit ∧ Instr.vfyEnd = .vfyEnd) ∧ 2 ≤ ([0x01, 0x50] : List Byte).length := by decide
theorem witness_FrameLaws : stuff [0x10, 0x02] = [0x10, 0x10, 0x02] := by decide
theorem witness_DeframeIsThePartialInverse :
    frame [0x41] = [0x10, 0x02, 0x41, 0x10, 0x03] ∧ deframe [0x10, 0x02, 0x41] = .error (.protocol .truncated) := ⟨rfl, rfl⟩
theorem witness_OnlyBracketedCommandsEmitAFrame :
    ∀ i ∈ [Instr.ftxBegin, .ftxByte 0x10, .ftxEnd], i.unit = .transmitter := by
  simp [Instr.unit, Instr.mnemonic, Mnemonic.unit]
theorem witness_ReceiverComputesDeframe : State.reset.regs.rxs = .start := rfl
theorem witness_DoneMarksTheCompleteFrame : State.reset.regs.rxs = .start ∧ State.reset.regs.rxwhy = .none := ⟨rfl, rfl⟩
theorem witness_OneFramePerEnd : pingFed.regs.rxs = .start := rfl
theorem witness_PermittedSetIsThatOfTheRules :
    (defaultPunct.all fun c => romRef.keepsPunct c) = true ∧ (0x5F : CodePoint) ∈ structuralMarkers ++ excludedPunct ∧
    ([0x41, 0x5A, 0x61, 0x7A, 0x30, 0x39, 0x20, 0x21, 0x5C, 0xB7, 0x2588, 0x2581].all fun c => romRef.permitted.contains c) = true ∧
    ([0x40, 0x5B, 0x60, 0x7B, 0x7E, 0x5F, 0x22, 0x2594].all fun c => !romRef.permitted.contains c) = true := by
  decide +kernel
theorem witness_RomConsequences : romRef.enc 0x27 = some 0x27 := by decide +kernel
/-- A canonical byte, a second byte of a character, an unmapped byte, and a text of the permitted set. -/
theorem witness_CodecRoundTrips :
    (0x41 : CodePoint) ∈ romRef.permitted ∧ romEnc romRef (romDec romRef 0x27) = some 0x27 ∧
    (romDec romRef 0x22 ∈ romRef.permitted ∧ romEnc romRef (romDec romRef 0x22) ≠ some 0x22) ∧
    romDec romRef 0x25 ∉ romRef.permitted ∧ encodeText romRef [0x48, 0x69, 0x21] = .ok [0x48, 0x69, 0x21] := by
  exact ⟨letterA_permitted _, by decide +kernel, by decide +kernel, by decide +kernel, by decide +kernel⟩
/-- A text whose every response is OK, and one with a refused character. -/
theorem witness_CodecCommandsComputeTheFunctions :
    (∀ p ∈ [0x41, 0x41].map (encResponse Config.charRom.val), p.status = .ok) ∧
    ¬ (∀ p ∈ [0x41, 0x22].map (encResponse Config.charRom.val), p.status = .ok) := by
  have ok : (encResponse Config.charRom.val 0x41).status = .ok := by
    rcases encResponse_cases Config.charRom.val 0x41 with ⟨b, _, h⟩ | ⟨h, _⟩
    · rw [h]; rfl
    · have := (Config.charRom.property.rom1 _).2 (letterA_permitted _)
      rw [h] at this; cases this
  refine ⟨by simpa using ok, fun all => ?_⟩
  have bad := all (encResponse Config.charRom.val 0x22) (by simp)
  revert bad
  rcases encResponse_cases Config.charRom.val 0x22 with ⟨b, h, _⟩ | ⟨_, h⟩
  · exact absurd ((Config.charRom.property.rom1 _).1 (by rw [h]; rfl)) (quote_not_permitted _)
  · rw [h]; decide
theorem witness_AssemblerTakesWhatFits : assembleCommand ⟨.crcFeed, .byte 0xFF⟩ = some (.crcFeed 0xFF) := by decide

end Sys2Proof.Tests
end

/-! PROOFS: encoded words. The word of a command decodes to it (30_encoding.md R60 to R64, R72), so every list of
commands has a run. -/

namespace Sys2Proof.Machine

/-- No operand reaches the opcode field. -/
theorem operandArea_getElem_of_le (i : Instr) {k : Nat} (hk : 24 ≤ k) (hlt : k < 32) :
    i.operandArea[k] = false := by
  cases i with
  | enc cp => simp [Instr.operandArea, BitVec.getLsbD_of_ge cp k (by omega)]
  | dec b | crcFeed b | vfyFeed b | ftxByte b | frxByte b =>
    simp [Instr.operandArea, BitVec.getLsbD_of_ge b k (by omega)]
  | crcInit | crcTag | vfyInit | vfyEnd | ftxBegin | ftxEnd | frxInit | frxEnd | frxStat => simp [Instr.operandArea]

theorem opField_encode (i : Instr) : opField (encode i) = i.mnemonic.opcode := by
  ext j hj
  simp [opField, encode, operandArea_getElem_of_le, show 24 + j < 32 by omega, BitVec.getLsbD_eq_getElem hj]

/-- Below the opcode a command's word is its operand (R60). -/
theorem encode_extractLsb' (i : Instr) {k n : Nat} (hkn : k + n ≤ 24) :
    (encode i).extractLsb' k n = i.operandArea.extractLsb' k n := by
  ext j hj
  simp [encode, show k + j < 24 by omega]

theorem byteField_encode (i : Instr) : byteField (encode i) = byteField i.operandArea :=
  encode_extractLsb' i (by decide)

theorem codePointField_encode (i : Instr) : codePointField (encode i) = codePointField i.operandArea :=
  encode_extractLsb' i (by decide)

theorem reservedBitsZero_encode (f : Format) (i : Instr) :
    f.reservedBitsZero (encode i) = f.reservedBitsZero i.operandArea := by
  cases f <;> simp [Format.reservedBitsZero, encode_extractLsb']

@[simp] theorem byteField_setWidth (b : Byte) : byteField (b.setWidth 32) = b := by
  ext j hj
  simp [byteField, show j < 32 by omega, BitVec.getLsbD_eq_getElem hj]

@[simp] theorem codePointField_setWidth (cp : CodePoint) : codePointField (cp.setWidth 32) = cp := by
  ext j hj
  simp [codePointField, show j < 32 by omega, BitVec.getLsbD_eq_getElem hj]

/-- The operand read back from a command's word is the command's (R61 to R63). -/
theorem readOperand_encode (i : Instr) : i.mnemonic.readOperand (encode i) = i := by
  cases i <;> simp [Mnemonic.readOperand, Instr.mnemonic, byteField_encode, codePointField_encode, Instr.operandArea]

/-- A command's operand keeps to its format's field: F0 has none, FB a byte, FC a code point (R61 to R63). -/
theorem reservedBitsZero_operandArea (i : Instr) : i.mnemonic.format.reservedBitsZero i.operandArea = true := by
  cases i with
  | enc cp =>
    have hzero : (cp.setWidth 32 : Word).extractLsb' 21 3 = 0 := by ext j hj; simp
    exact beq_iff_eq.2 hzero
  | dec b | crcFeed b | vfyFeed b | ftxByte b | frxByte b =>
    have hzero : (b.setWidth 32 : Word).extractLsb' 8 16 = 0 := by ext j hj; simp
    exact beq_iff_eq.2 hzero
  | crcInit | crcTag | vfyInit | vfyEnd | ftxBegin | ftxEnd | frxInit | frxEnd | frxStat => rfl

/-- The opcodes of R64 are distinct. -/
theorem mnemonicOf_opcode (m : Mnemonic) : mnemonicOf m.opcode = some m := by
  cases m <;> rfl

/-- The word of a command decodes to the command. -/
theorem decode_encode (i : Instr) : decode (encode i) = .ok i := by
  simp only [decode, opField_encode, mnemonicOf_opcode, reservedBitsZero_encode,
    reservedBitsZero_operandArea, readOperand_encode, if_true]

/-- `runs_effects` without its hypothesis: every list of commands has a run. -/
theorem exists_run (is : List Instr) (s : State) :
    ∃ t, Runs s is t (effectsOf is s.regs).2 ∧ t.regs = (effectsOf is s.regs).1 :=
  runs_effects (fun i _ => decode_encode i) s

end Sys2Proof.Machine

/-! PROOFS: runs of the generator. What runs of the generator's commands leave in `crc` (10_state.md R24). -/

namespace Sys2Proof.Machine

@[simp] theorem crcReg_nil (c : Crc16) : crcReg c [] = c := rfl
@[simp] theorem crcReg_cons (c : Crc16) (b : Byte) (bs : List Byte) : crcReg c (b :: bs) = crcReg (crcStep c b) bs := rfl

/-- CRC_FEED of each byte of a sequence folds the sequence into `crc`, and every feed answers OK. -/
theorem effectsOf_crcFeeds (bs : List Byte) (r : Registers) :
    effectsOf (bs.map .crcFeed) r =
      ({ r with crc := crcReg r.crc bs }, List.replicate bs.length (.okWith 0 [])) := by
  induction bs generalizing r with
  | nil => rfl
  | cons b bs ih => simp [ih, effectOf, List.replicate_succ]

/-- CRC_INIT before the feeds makes the fold start from 0xFFFF, whatever `crc` held. -/
theorem effectsOf_crcInit_crcFeeds (bs : List Byte) (r : Registers) :
    effectsOf (.crcInit :: bs.map .crcFeed) r =
      ({ r with crc := crcReg 0xFFFF bs }, List.replicate (bs.length + 1) (.okWith 0 [])) := by
  rw [effectsOf_cons, effectsOf_crcFeeds]
  rfl

/-- The checksum is the tag of the register that has taken in the bytes, low byte first (R24, R103). -/
theorem checksum_eq_bytes_of_crcReg (bs : List Byte) :
    checksum bs =
      [(crcReg 0xFFFF bs ^^^ 0xFFFF).extractLsb' 0 8, (crcReg 0xFFFF bs ^^^ 0xFFFF).extractLsb' 8 8] := rfl

/-- Settles O42: the run has the commands' effects, which are the fold of the bytes into `crc`. -/
theorem crcRegisterHoldsTheRunningCrc : Obligations.CrcRegisterHoldsTheRunningCrc := by
  intro s bs
  obtain ⟨t, hrun, hregs⟩ := exists_run (.crcInit :: bs.map .crcFeed) s
  rw [effectsOf_crcInit_crcFeeds] at hregs
  refine ⟨t, _, hrun, hregs, ?_⟩
  rw [hregs]
  exact checksum_eq_bytes_of_crcReg bs

end Sys2Proof.Machine

/-! PROOFS: the opcode table and the decoder. A row of the table (30_encoding.md R64) and the decoder's two tests, of the
opcode and of the must-be-zero bits (R72), pick out the same words, so the words of no row are the illegal ones (R65). -/

namespace Sys2Proof

/-- The bits of a word that a format fixes: all above its operand field (R61 to R63). -/
def Format.mask (f : Format) : Word := BitVec.allOnes 32 <<< f.operandBits

/-- The row of the opcode table that R61 to R64 give a mnemonic. -/
def Mnemonic.row (m : Mnemonic) : OpcodeRow := ⟨m, m.opcode.setWidth 32 <<< 24, m.format.mask⟩

/-- The match and mask columns of the opcode table are what the opcode map and the formats make them. -/
theorem opcodeTable_eq_map_row : opcodeTable = Mnemonic.all.map Mnemonic.row := by decide

theorem Mnemonic.mem_all (m : Mnemonic) : m ∈ Mnemonic.all := by
  cases m <;> decide

/-- Under a format's mask a word is `op` over zeros exactly if `op` is its opcode and its must-be-zero bits are zero. -/
theorem Format.and_mask_eq_iff (f : Format) (w : Word) (op : BitVec 8) :
    w &&& f.mask = op.setWidth 32 <<< 24 ↔ opField w = op ∧ f.reservedBitsZero w = true := by
  have hmask : w &&& f.mask = (w >>> f.operandBits) <<< f.operandBits := BitVec.shiftLeft_ushiftRight.symm
  rw [hmask]
  cases f with
  | f0 | fb | fc =>
    simp only [Format.reservedBitsZero, Format.operandBits, opField, beq_iff_eq, ← BitVec.toNat_inj, BitVec.ofNat_eq_ofNat,
      BitVec.toNat_shiftLeft, BitVec.toNat_ushiftRight, BitVec.toNat_setWidth, BitVec.extractLsb'_toNat, BitVec.toNat_ofNat,
      Nat.shiftLeft_eq, Nat.shiftRight_eq_div_pow, Nat.reducePow]
    omega

/-- A word is of a mnemonic's row exactly if it passes the decoder's two tests for that mnemonic. -/
theorem row_covers_iff (m : Mnemonic) (w : Word) :
    m.row.covers w = true ↔ opField w = m.opcode ∧ m.format.reservedBitsZero w = true := by
  rw [← Format.and_mask_eq_iff]
  exact beq_iff_eq

theorem legalWord_iff (w : Word) :
    legalWord w = true ↔ ∃ m : Mnemonic, opField w = m.opcode ∧ m.format.reservedBitsZero w = true := by
  simp [legalWord, opcodeTable_eq_map_row, Mnemonic.mem_all, row_covers_iff]

end Sys2Proof

namespace Sys2Proof.Machine

theorem mnemonicOf_eq_some_iff (op : BitVec 8) (m : Mnemonic) : mnemonicOf op = some m ↔ op = m.opcode := by
  constructor
  · intro h
    exact (beq_iff_eq.1 (List.find?_some h :)).symm
  · rintro rfl
    exact mnemonicOf_opcode m

/-- The decode procedure of R72 as a condition on the word: its opcode, its must-be-zero bits, its operand. -/
theorem decode_eq_ok_iff (w : Word) (i : Instr) :
    decode w = .ok i ↔
      ∃ m : Mnemonic, opField w = m.opcode ∧ m.format.reservedBitsZero w = true ∧ m.readOperand w = i := by
  simp only [← mnemonicOf_eq_some_iff, decode]
  cases mnemonicOf (opField w) with
  | none => simp
  | some m => by_cases hz : m.format.reservedBitsZero w = true <;> simp [hz]

/-- The words the decoder takes are those of the opcode table's rows. -/
theorem exists_decode_eq_ok_iff_legalWord (w : Word) : (∃ i, decode w = .ok i) ↔ legalWord w = true := by
  simp only [decode_eq_ok_iff, legalWord_iff]
  constructor
  · rintro ⟨_, m, hop, hzero, _⟩
    exact ⟨m, hop, hzero⟩
  · rintro ⟨m, hop, hzero⟩
    exact ⟨_, m, hop, hzero, rfl⟩

theorem answersIllegal_of_decode_eq_error {w : Word} {e : DecodeError} (h : decode w = .error e) : AnswersIllegal w := by
  intro s
  rw [runWord_eq_commit, wordEffect_illegal h]
  rfl

theorem answersIllegal_of_legalWord_eq_false {w : Word} (h : legalWord w = false) : AnswersIllegal w := by
  cases hd : decode w with
  | ok i => exact absurd ((exists_decode_eq_ok_iff_legalWord w).1 ⟨i, hd⟩) (by simp [h])
  | error e => exact answersIllegal_of_decode_eq_error hd

/-- The opcodes that R65 lists as unassigned. -/
def UnassignedOpcode (op : Nat) : Prop :=
  op ≤ 0x0F ∨ (0x12 ≤ op ∧ op ≤ 0x1F) ∨ (0x23 ≤ op ∧ op ≤ 0x2F) ∨ (0x33 ≤ op ∧ op ≤ 0x3F) ∨
    (0x43 ≤ op ∧ op ≤ 0x4F) ∨ 0x54 ≤ op

/-- R65 lists no opcode of R64 as unassigned. -/
theorem not_unassignedOpcode_opcode (m : Mnemonic) : ¬ UnassignedOpcode m.opcode.toNat := by
  cases m <;> simp [UnassignedOpcode, Mnemonic.opcode]

theorem legalWord_eq_false_of_unassignedOpcode {w : Word} (h : UnassignedOpcode (opField w).toNat) :
    legalWord w = false := by
  rw [← Bool.not_eq_true, legalWord_iff]
  rintro ⟨m, hop, -⟩
  exact not_unassignedOpcode_opcode m (hop ▸ h)

/-- Settles O16: the decoder and the opcode table take the same words, and no row has an opcode that R65 lists. -/
theorem illegalWordsAreAnsweredAndChangeNothing : Obligations.IllegalWordsAreAnsweredAndChangeNothing :=
  ⟨exists_decode_eq_ok_iff_legalWord,
   fun _ hw => answersIllegal_of_legalWord_eq_false hw,
   fun _ hop => answersIllegal_of_legalWord_eq_false (legalWord_eq_false_of_unassignedOpcode hop)⟩

end Sys2Proof.Machine

/-! PROOFS: the codec commands. A command's word runs it and a must-be-zero bit makes the word illegal (30_encoding.md R61 to
R65), what the ROM properties of 40_codec.md R86 say of single characters and bytes, and from both the answers of ENC (R91) and
DEC (R92). -/

namespace Sys2Proof.Machine

theorem runsAs_encode (i : Instr) : RunsAs (encode i) i := by
  intro s
  rw [runWord_eq_commit, wordEffect_legal (decode_encode i), exec_eq_commit]

/-- A command's word as its opcode's word over the operand (R60). -/
theorem runsAs_opcode_or_operandArea (i : Instr) (op : Word) (hop : i.mnemonic.opcode.setWidth 32 <<< 24 = op) :
    RunsAs (op ||| i.operandArea) i := by
  subst hop
  exact runsAs_encode i

theorem answersIllegal_of_reservedBitsZero_eq_false {w : Word} {m : Mnemonic} (hop : opField w = m.opcode)
    (hbits : m.format.reservedBitsZero w = false) : AnswersIllegal w := by
  have herror : decode w = .error (.reservedBitSet m) := by
    simp [decode, hop, mnemonicOf_opcode, hbits]
  exact answersIllegal_of_decode_eq_error herror

end Sys2Proof.Machine

namespace Sys2Proof

/-- The characters that some choice of `PUNCT_SET` and `ONE_EIGHTH_CP` permits (R80 to R82). -/
def permittedCandidates : List CodePoint :=
  refAscii ++ [0xB7, 0x2022, 0x2500, 0x2501, 0x2588] ++ [0x2581, 0x2594, 0x258F, 0x2595]

theorem OneEighth.codePoint_mem (e : OneEighth) :
    e.codePoint ∈ ([0x2581, 0x2594, 0x258F, 0x2595] : List CodePoint) := by
  cases e <;> decide

theorem CharRom.permitted_subset_candidates (r : CharRom) : r.permitted ⊆ permittedCandidates := by
  have hpunct : r.punctSet ⊆ defaultPunct := List.filter_subset_self _
  have heighth := r.oneEighth.codePoint_mem
  intro c hc
  simp only [CharRom.permitted, CharRom.extension, permittedCandidates, refAscii, List.mem_append,
    List.mem_cons, List.not_mem_nil] at hc heighth ⊢
  grind

/-- The control characters, the surrogates, and the values above U+10FFFF (R91). -/
def OutsideText (cp : CodePoint) : Prop :=
  cp.toNat < 0x20 ∨ (0x7F ≤ cp.toNat ∧ cp.toNat < 0xA0) ∨ (0xD800 ≤ cp.toNat ∧ cp.toNat ≤ 0xDFFF) ∨ 0x10FFFF < cp.toNat

theorem not_outsideText_of_mem_candidates : ∀ c ∈ permittedCandidates, ¬ OutsideText c := by
  unfold OutsideText
  exact List.all_iff_forall_prop.1 (by decide +kernel)

theorem CharRom.not_permitted_of_outsideText (r : CharRom) {c : CodePoint} (h : OutsideText c) : c ∉ r.permitted :=
  fun hc => not_outsideText_of_mem_candidates c (r.permitted_subset_candidates hc) h

theorem CharRom.not_permitted_of_marker_or_excluded (r : CharRom) :
    ∀ c ∈ structuralMarkers ++ excludedPunct ++ [replacementChar, 0], c ∉ r.permitted := by
  have houtside : ∀ c ∈ structuralMarkers ++ excludedPunct ++ [replacementChar, 0], c ∉ permittedCandidates :=
    List.all_iff_forall_prop.1 (by decide +kernel)
  exact fun c hc hp => houtside c hc (r.permitted_subset_candidates hp)

namespace CharRom.Admissible

variable {r : CharRom}

theorem exists_enc_of_permitted (h : r.Admissible) {c : CodePoint} (hc : c ∈ r.permitted) : ∃ b, r.enc c = some b :=
  Option.isSome_iff_exists.1 ((h.rom1 c).2 hc)

theorem enc_eq_none_of_not_permitted (h : r.Admissible) {c : CodePoint} (hc : c ∉ r.permitted) : r.enc c = none :=
  Option.not_isSome_iff_eq_none.1 fun hsome => hc ((h.rom1 c).1 hsome)

theorem dec_eq_replacementChar_of_not_permitted (h : r.Admissible) {b : Byte} (hb : r.dec b ∉ r.permitted) :
    r.dec b = replacementChar :=
  (h.rom3 b).resolve_left hb

/-- ROM-4 gives the apostrophe a byte that decodes to it, and by ROM-3 bytes decode into `P` or to U+FFFD. -/
theorem apostrophe_permitted (h : r.Admissible) : apostrophe ∈ r.permitted := by
  have hpos : 0 < allBytes.countP fun b => r.dec b == apostrophe := by
    have htwo := h.rom4
    unfold CharRom.decodings at htwo
    omega
  obtain ⟨b, -, hb⟩ := List.countP_pos_iff.1 hpos
  have hdec : r.dec b = apostrophe := beq_iff_eq.1 hb
  have hne : apostrophe ≠ replacementChar := by decide
  exact hdec ▸ (h.rom3 b).resolve_right (hdec ▸ hne)

end CharRom.Admissible

end Sys2Proof

namespace Sys2Proof.Machine

theorem runsAs_enc (cp : CodePoint) : RunsAs (0x10000000 ||| cp.setWidth 32) (.enc cp) :=
  runsAs_opcode_or_operandArea (.enc cp) 0x10000000 (by simp [Instr.mnemonic, Mnemonic.opcode])

theorem runsAs_dec (b : Byte) : RunsAs (0x11000000 ||| b.setWidth 32) (.dec b) :=
  runsAs_opcode_or_operandArea (.dec b) 0x11000000 (by simp [Instr.mnemonic, Mnemonic.opcode])

theorem exec_enc (cp : CodePoint) (s : State) :
    exec (.enc cp) s = .next { s with response := some (encResponse Config.charRom.val cp) } := rfl

theorem exec_dec (b : Byte) (s : State) :
    exec (.dec b) s = .next { s with response := some ⟨.ok, (romDec Config.charRom.val b).setWidth 32, []⟩ } := rfl

theorem encResponse_of_enc_eq_some {rom : CharRom} {cp : CodePoint} {b : Byte} (h : rom.enc cp = some b) :
    encResponse rom cp = ⟨.ok, 0, [b]⟩ := by
  simp only [encResponse, romEnc, h, Response.okWith]

theorem encResponse_of_enc_eq_none {rom : CharRom} {cp : CodePoint} (h : rom.enc cp = none) :
    encResponse rom cp = ⟨.validationError, cp.setWidth 32, []⟩ := by
  simp only [encResponse, romEnc, h, Response.raise]

/-- ENC and the must-be-zero bits of its format (R63). -/
theorem enc_reservedBitSet_answersIllegal {w : Word} (hop : w.extractLsb' 24 8 = 0x10) (hbits : w.extractLsb' 21 3 ≠ 0) :
    AnswersIllegal w :=
  answersIllegal_of_reservedBitsZero_eq_false (m := .enc) hop (beq_eq_false_iff_ne.2 hbits)

/-- DEC and the must-be-zero bits of its format (R62). -/
theorem dec_reservedBitSet_answersIllegal {w : Word} (hop : w.extractLsb' 24 8 = 0x11) (hbits : w.extractLsb' 8 16 ≠ 0) :
    AnswersIllegal w :=
  answersIllegal_of_reservedBitsZero_eq_false (m := .dec) hop (beq_eq_false_iff_ne.2 hbits)

/-- The value of a DEC response tells code points apart. -/
theorem decResponse_value_eq_iff (rom : CharRom) (b : Byte) (c : CodePoint) :
    (decResponse rom b).value = c.setWidth 32 ↔ rom.dec b = c := by
  change (rom.dec b).setWidth 32 = c.setWidth 32 ↔ rom.dec b = c
  constructor
  · intro h
    bv_omega
  · rintro rfl
    rfl

/-- As many bytes are answered with a code point as decode to it. -/
theorem countP_decResponse_value (rom : CharRom) (c : CodePoint) :
    (allBytes.countP fun b => (decResponse rom b).value == c.setWidth 32) = rom.decodings c :=
  List.countP_congr fun b _ => by simp only [beq_iff_eq, decResponse_value_eq_iff]

/-- A byte that decodes to U+FFFD is answered with it. -/
theorem exec_dec_of_replacementChar {b : Byte} (h : Config.charRom.val.dec b = replacementChar) (s : State) :
    exec (.dec b) s = .next { s with response := some ⟨.ok, 0x0000FFFD, []⟩ } := by
  rw [exec_dec, romDec, h]
  rfl

/-- Settles O1: ROM-1 decides between the two answers, and no choice of the ROM's parameters permits a corner case. -/
theorem encAnswersByPermittedSet : Obligations.EncAnswersByPermittedSet := by
  have hrom := Config.charRom.property
  refine ⟨runsAs_enc, ?permitted, ?notPermitted, CharRom.not_permitted_of_marker_or_excluded _,
    fun _ hc => CharRom.not_permitted_of_outsideText _ hc, hrom.apostrophe_permitted,
    fun _ => enc_reservedBitSet_answersIllegal, ?examples⟩
  case permitted =>
    intro cp hcp
    obtain ⟨b, hb⟩ := hrom.exists_enc_of_permitted hcp
    exact ⟨b, hb, fun s => by rw [exec_enc, encResponse_of_enc_eq_some hb]⟩
  case notPermitted =>
    intro cp hcp
    have hnone := hrom.enc_eq_none_of_not_permitted hcp
    exact ⟨hnone, fun s => by rw [exec_enc, encResponse_of_enc_eq_none hnone]⟩
  case examples => decide +kernel

/-- Settles O2: DEC reads the ROM, whose properties ROM-3, 4, 5 and 7 are the corner cases. -/
theorem decAnswersEveryByte : Obligations.DecAnswersEveryByte := by
  have hrom := Config.charRom.property
  exact ⟨runsAs_dec, exec_dec, fun _ => dec_reservedBitSet_answersIllegal,
    fun _ hb => exec_dec_of_replacementChar (hrom.dec_eq_replacementChar_of_not_permitted hb),
    (countP_decResponse_value _ apostrophe).trans hrom.rom4,
    (countP_decResponse_value _ _).trans hrom.rom5,
    exec_dec_of_replacementChar hrom.rom7, by decide +kernel⟩

end Sys2Proof.Machine

/-! PROOFS: the generator commands CRC_INIT, CRC_FEED and CRC_TAG (41_crc.md R108 to R110), with what every command of the
formats F0 and FB shares: its word (30_encoding.md R61, R62) and its must-be-zero bits (R65). -/

namespace Sys2Proof.Machine

/-- A command without operand and the must-be-zero bits of F0 (R61). -/
theorem answersIllegal_of_f0_reservedBitSet {m : Mnemonic} (hformat : m.format = .f0) {w : Word}
    (hop : w.extractLsb' 24 8 = m.opcode) (hbits : w.extractLsb' 0 24 ≠ 0) : AnswersIllegal w :=
  answersIllegal_of_reservedBitsZero_eq_false hop (by rw [hformat]; exact beq_eq_false_iff_ne.2 hbits)

/-- A command with a byte and the must-be-zero bits of FB (R62). -/
theorem answersIllegal_of_fb_reservedBitSet {m : Mnemonic} (hformat : m.format = .fb) {w : Word}
    (hop : w.extractLsb' 24 8 = m.opcode) (hbits : w.extractLsb' 8 16 ≠ 0) : AnswersIllegal w :=
  answersIllegal_of_reservedBitsZero_eq_false hop (by rw [hformat]; exact beq_eq_false_iff_ne.2 hbits)

theorem exec_eq_next_iff (i : Instr) (s t : State) :
    exec i s = .next t ↔ t = s.commit (effectOf i s.regs) := by
  rw [exec_eq_commit, Host.Outcome.next.injEq, eq_comm]

theorem runsAs_crcFeed (b : Byte) : RunsAs (0x21000000 ||| b.setWidth 32) (.crcFeed b) :=
  runsAs_opcode_or_operandArea (.crcFeed b) 0x21000000 (by simp [Instr.mnemonic, Mnemonic.opcode])

theorem exec_crcInit (s : State) :
    exec .crcInit s = .next { s with regs := { s.regs with crc := 0xFFFF }, response := some ⟨.ok, 0, []⟩ } := rfl

theorem exec_crcFeed (b : Byte) (s : State) :
    exec (.crcFeed b) s =
      .next { s with regs := { s.regs with crc := crcStep s.regs.crc b }, response := some ⟨.ok, 0, []⟩ } := rfl

theorem exec_crcTag (s : State) :
    exec .crcTag s = .next { s with
      response := some ⟨.ok, (s.regs.crc ^^^ 0xFFFF).setWidth 32,
        [(s.regs.crc ^^^ 0xFFFF).extractLsb' 0 8, (s.regs.crc ^^^ 0xFFFF).extractLsb' 8 8]⟩ } := rfl

/-- The register after the payload of the examples in R110, R112 and R113. -/
theorem crcReg_examplePayload : crcReg 0xFFFF [0x01, 0x50, 0x80] = 0x3410 := by decide +kernel

/-- Settles O3: CRC_INIT writes a constant to `crc`, so a second one changes nothing more. -/
theorem crcInitStartsAChecksum : Obligations.CrcInitStartsAChecksum := by
  refine ⟨runsAs_encode .crcInit, exec_crcInit, fun _ => answersIllegal_of_f0_reservedBitSet (m := .crcInit) rfl,
    ?idempotent⟩
  intro s t ht
  obtain rfl := (exec_eq_next_iff _ _ _).1 ht
  exact ⟨exec_crcInit _, rfl⟩

/-- Settles O4: CRC_FEED folds its byte into `crc`. -/
theorem crcFeedAddsOneByte : Obligations.CrcFeedAddsOneByte :=
  ⟨runsAs_crcFeed, exec_crcFeed, fun _ => answersIllegal_of_fb_reservedBitSet (m := .crcFeed) rfl, by decide +kernel⟩

/-- Settles O5: the response of CRC_TAG is a function of `crc` alone, evaluated at the two values of R110. -/
theorem crcTagReadsTheTag : Obligations.CrcTagReadsTheTag := by
  refine ⟨runsAs_encode .crcTag, exec_crcTag, fun _ => answersIllegal_of_f0_reservedBitSet (m := .crcTag) rfl,
    ?afterInit, by decide +kernel, crcReg_examplePayload, ?afterPayload⟩
  case afterInit =>
    intro s hcrc
    rw [exec_crcTag, hcrc]
    rfl
  case afterPayload =>
    intro s hcrc
    rw [exec_crcTag, hcrc]
    rfl

end Sys2Proof.Machine

/-! PROOFS: the checker commands VFY_INIT, VFY_FEED and VFY_END (41_crc.md R111 to R113). The delay line is described by the
bytes fed since it was empty, split as payload and last two bytes: what it has emitted and what it still holds. -/

namespace Sys2Proof.Machine

theorem runsAs_vfyFeed (b : Byte) : RunsAs (0x31000000 ||| b.setWidth 32) (.vfyFeed b) :=
  runsAs_opcode_or_operandArea (.vfyFeed b) 0x31000000 (by simp [Instr.mnemonic, Mnemonic.opcode])

theorem exec_vfyInit (s : State) :
    exec .vfyInit s = .next { s with
      regs := { s.regs with vcrc := 0xFFFF, vhold0 := 0x00, vhold1 := 0x00, vcnt := 0 },
      response := some ⟨.ok, 0, []⟩ } := rfl

theorem exec_vfyFeed (b : Byte) (s : State) : exec (.vfyFeed b) s = .next (s.commit (vfyFeed b s.regs)) := rfl

theorem exec_vfyEnd (s : State) :
    exec .vfyEnd s = .next { s with regs := s.regs.armChecker, response := some (vfyEndResponse s.regs) } := rfl

@[simp] theorem effectOf_vfyFeed (b : Byte) (r : Registers) : effectOf (.vfyFeed b) r = vfyFeed b r := rfl

section DelayLine

variable {r : Registers}

theorem vfyFeed_of_vcnt_zero (b : Byte) (h : r.vcnt = 0) :
    vfyFeed b r = ({ r with vhold0 := b, vcnt := 1 }, ⟨.ok, 0, []⟩) := by
  simp only [vfyFeed, h, if_true, Response.okWith]

theorem vfyFeed_of_vcnt_one (b : Byte) (h : r.vcnt = 1) :
    vfyFeed b r = ({ r with vhold1 := b, vcnt := 2 }, ⟨.ok, 0, []⟩) := by
  simp [vfyFeed, h, Response.okWith]

theorem vfyFeed_of_vcnt_two (b : Byte) (h : r.vcnt = 2) :
    vfyFeed b r =
      ({ r with vcrc := crcStep r.vcrc r.vhold0, vhold0 := r.vhold1, vhold1 := b }, ⟨.ok, 0, [r.vhold0]⟩) := by
  simp [vfyFeed, h, Response.okWith]

/-- From an empty delay line, the last two bytes fed are held and every byte before them has been emitted and checksummed, one
per feed from the third on (R25, R26, R112). -/
theorem effectsOf_vfyFeeds (h : r.vcnt = 0) (p : List Byte) (d0 d1 : Byte) :
    effectsOf ((p ++ [d0, d1]).map .vfyFeed) r =
      ({ r with vcrc := crcReg r.vcrc p, vhold0 := d0, vhold1 := d1, vcnt := 2 },
        List.replicate 2 ⟨.ok, 0, []⟩ ++ p.map fun b => ⟨.ok, 0, [b]⟩) := by
  induction p using List.reverseRecOn generalizing d0 d1 with
  | nil => simp [vfyFeed_of_vcnt_zero _ h, vfyFeed_of_vcnt_one, List.replicate_succ]
  | append_singleton q c ih =>
    have hfed : (q ++ [c]) ++ [d0, d1] = (q ++ [c, d0]) ++ [d1] := by simp
    rw [hfed, List.map_append, effectsOf_append, ih c d0]
    simp [vfyFeed_of_vcnt_two, crcReg]

/-- The bytes that feeds from an empty delay line emit, feed by feed, for every length of the sequence (R112). -/
theorem effectsOf_vfyFeeds_out (h : r.vcnt = 0) (x : List Byte) :
    (effectsOf (x.map .vfyFeed) r).2.map Response.out =
      (x.take 2).map (fun _ => []) ++ (x.take (x.length - 2)).map fun b => [b] := by
  rcases x.eq_nil_or_concat' with rfl | ⟨y, d1, rfl⟩
  · rfl
  rcases y.eq_nil_or_concat' with rfl | ⟨p, d0, rfl⟩
  · simp [vfyFeed_of_vcnt_zero _ h]
  · have hfed : (p ++ [d0]) ++ [d1] = p ++ [d0, d1] := by simp
    have htake : ((p ++ [d0, d1]).take 2).map (fun _ => ([] : List Byte)) = List.replicate 2 [] := by
      rw [List.map_const', List.length_take_of_le (by simp)]
    rw [hfed, effectsOf_vfyFeeds h, htake]
    simp [Function.comp_def]

end DelayLine

/-- VFY_INIT before the feeds empties the delay line, whatever the checker held. -/
theorem effectsOf_vfyInit_vfyFeeds (p : List Byte) (d0 d1 : Byte) (r : Registers) :
    effectsOf (.vfyInit :: (p ++ [d0, d1]).map .vfyFeed) r =
      ({ r with vcrc := crcReg 0xFFFF p, vhold0 := d0, vhold1 := d1, vcnt := 2 },
        List.replicate 3 ⟨.ok, 0, []⟩ ++ p.map fun b => ⟨.ok, 0, [b]⟩) := by
  have harmed : (effectOf .vfyInit r).1.vcnt = 0 := rfl
  rw [effectsOf_cons, effectsOf_vfyFeeds harmed]
  rfl

/-- Settles O7: the three fills of the delay line one by one, and over a sequence the description of `effectsOf_vfyFeeds`. -/
theorem vfyFeedShiftsTheDelayLine : Obligations.VfyFeedShiftsTheDelayLine := by
  refine ⟨runsAs_vfyFeed, ?empty, ?one, ?full,
    fun _ => answersIllegal_of_fb_reservedBitSet (m := .vfyFeed) rfl, ?sequence, ?payloadAndTag⟩
  case empty =>
    intro b s h
    rw [exec_vfyFeed, vfyFeed_of_vcnt_zero b h]
    rfl
  case one =>
    intro b s h
    rw [exec_vfyFeed, vfyFeed_of_vcnt_one b h]
    rfl
  case full =>
    intro b s h
    rw [exec_vfyFeed, vfyFeed_of_vcnt_two b h]
    rfl
  case sequence =>
    intro x s h
    obtain ⟨t, hrun, -⟩ := exists_run (x.map .vfyFeed) s
    exact ⟨t, _, hrun, effectsOf_vfyFeeds_out h x⟩
  case payloadAndTag =>
    intro s
    obtain ⟨t, hrun, hregs⟩ := exists_run (.vfyInit :: (([0x01, 0x50, 0x80] : List Byte) ++ [0xEF, 0xCB]).map .vfyFeed) s
    rw [effectsOf_vfyInit_vfyFeeds] at hrun hregs
    rw [crcReg_examplePayload] at hregs
    exact ⟨t, _, _, _, _, _, _, hrun, rfl, hregs⟩

/-- VFY_END on a checker just re-armed, by VFY_INIT or by VFY_END: no byte was fed, so it answers SHORT and re-arming again
changes nothing. -/
theorem exec_vfyEnd_of_armed (s : State) (p : Response) :
    exec .vfyEnd (s.commit (s.regs.armChecker, p)) =
      .next { s.commit (s.regs.armChecker, p) with response := some ⟨.protocolError, 0x00000001, []⟩ } := rfl

/-- Settles O6: VFY_INIT writes constants to the checker's registers, so a second one changes nothing more. -/
theorem vfyInitArmsTheChecker : Obligations.VfyInitArmsTheChecker := by
  refine ⟨runsAs_encode .vfyInit, exec_vfyInit, fun _ => answersIllegal_of_f0_reservedBitSet (m := .vfyInit) rfl,
    ?again⟩
  intro s t ht
  obtain rfl := (exec_eq_next_iff _ _ _).1 ht
  exact ⟨exec_vfyInit _, exec_vfyEnd_of_armed _ _⟩

/-- The received tag is in the low half of the value (R45, R113). -/
theorem tagPairValue_low (recv expected : Crc16) : (tagPairValue recv expected).extractLsb' 0 16 = recv := by
  ext j hj
  simp [tagPairValue, show j < 32 by omega, hj]

/-- The expected tag is in the high half of the value (R45, R113). -/
theorem tagPairValue_high (recv expected : Crc16) : (tagPairValue recv expected).extractLsb' 16 16 = expected := by
  ext j hj
  simp [tagPairValue, show 16 + j < 32 by omega, BitVec.getLsbD_eq_getElem hj]

/-- The answer of VFY_END as R113 writes it. -/
theorem vfyEndResponse_eq (r : Registers) :
    vfyEndResponse r =
      if r.vcnt < 2 then ⟨.protocolError, 0x00000001, []⟩
      else if receivedTag r ≠ expectedTag r then ⟨.checksumError, tagPairValue (receivedTag r) (expectedTag r), []⟩
      else ⟨.ok, tagPairValue (receivedTag r) (expectedTag r), []⟩ := by
  rcases vfyEndResponse_cases r with ⟨hshort, hp⟩ | ⟨hfull, hne, hp⟩ | ⟨hfull, heq, hp⟩
  · rw [if_pos hshort, hp]
    rfl
  · rw [if_neg (by omega), if_pos hne, hp]
    rfl
  · rw [if_neg (by omega), if_neg (not_not_intro heq), hp]
    rfl

/-- VFY_END answers OK only where the two tags agree. -/
theorem vfyEndResponse_value_halves_of_ok {r : Registers} (hok : (vfyEndResponse r).status = .ok) :
    (vfyEndResponse r).value.extractLsb' 16 16 = (vfyEndResponse r).value.extractLsb' 0 16 := by
  rcases vfyEndResponse_cases r with ⟨-, hp⟩ | ⟨-, -, hp⟩ | ⟨-, heq, hp⟩
  · simp [hp] at hok
  · simp [hp] at hok
  · rw [hp, Response.okWith_value, tagPairValue_high, tagPairValue_low, heq]

/-- VFY_END with two bytes held compares them, as a tag, with the tag of the bytes before them. -/
theorem exec_vfyEnd_of_full {s : State} {d0 d1 : Byte} {c : Crc16} (hcnt : s.regs.vcnt = 2) (h0 : s.regs.vhold0 = d0)
    (h1 : s.regs.vhold1 = d1) (hcrc : s.regs.vcrc = c) :
    exec .vfyEnd s = .next { s with
      regs := s.regs.armChecker
      response := some
        (if tagOfBytes d0 d1 ≠ c ^^^ 0xFFFF then
          ⟨.checksumError, tagPairValue (tagOfBytes d0 d1) (c ^^^ 0xFFFF), []⟩
        else ⟨.ok, tagPairValue (tagOfBytes d0 d1) (c ^^^ 0xFFFF), []⟩) } := by
  subst h0 h1 hcrc
  rw [exec_vfyEnd, vfyEndResponse_eq, if_neg (by omega)]
  rfl

/-- Settles O8: the answer is `vfyEndResponse` of the registers before they are re-armed, taken apart by its three cases. -/
theorem vfyEndReportsAndRearms : Obligations.VfyEndReportsAndRearms := by
  refine ⟨runsAs_encode .vfyEnd, ?answer, fun _ => answersIllegal_of_f0_reservedBitSet (m := .vfyEnd) rfl,
    ?halves, ?again, ?emptyPayload, ?examples⟩
  case answer =>
    intro s
    rw [exec_vfyEnd, vfyEndResponse_eq]
    rfl
  case halves =>
    intro s t p ht hp hok
    obtain rfl := (exec_eq_next_iff _ _ _).1 ht
    obtain rfl : vfyEndResponse s.regs = p := Option.some.inj hp
    exact vfyEndResponse_value_halves_of_ok hok
  case again =>
    intro s t ht
    obtain rfl := (exec_eq_next_iff _ _ _).1 ht
    exact exec_vfyEnd_of_armed _ _
  case emptyPayload =>
    intro s hcnt h0 h1 hcrc
    exact exec_vfyEnd_of_full hcnt h0 h1 hcrc
  case examples =>
    intro s hcnt h0 hcrc
    exact ⟨fun h1 => exec_vfyEnd_of_full hcnt h0 h1 hcrc, fun h1 => exec_vfyEnd_of_full hcnt h0 h1 hcrc⟩

end Sys2Proof.Machine

/-! PROOFS: the transmitter commands FTX_BEGIN, FTX_BYTE and FTX_END (42_framer.md R135 to R137). The transmitter has no
register, so each command is its response. -/

namespace Sys2Proof.Machine

theorem runsAs_ftxByte (b : Byte) : RunsAs (0x41000000 ||| b.setWidth 32) (.ftxByte b) :=
  runsAs_opcode_or_operandArea (.ftxByte b) 0x41000000 (by simp [Instr.mnemonic, Mnemonic.opcode])

theorem exec_ftxBegin (s : State) : exec .ftxBegin s = .next { s with response := some ⟨.ok, 0, [0x10, 0x02]⟩ } := rfl

theorem exec_ftxByte (b : Byte) (s : State) :
    exec (.ftxByte b) s = .next { s with response := some ⟨.ok, 0, stuffByte b⟩ } := rfl

theorem exec_ftxEnd (s : State) : exec .ftxEnd s = .next { s with response := some ⟨.ok, 0, [0x10, 0x03]⟩ } := rfl

@[simp] theorem stuffByte_dle : stuffByte dle = [dle, dle] := if_pos rfl

theorem stuffByte_of_ne_dle {b : Byte} (h : b ≠ dle) : stuffByte b = [b] := if_neg h

/-- Settles O9: FTX_BEGIN is its response, and a run of two has that response twice. -/
theorem ftxBeginEmitsTheOpening : Obligations.FtxBeginEmitsTheOpening := by
  refine ⟨runsAs_encode .ftxBegin, exec_ftxBegin, fun _ => answersIllegal_of_f0_reservedBitSet (m := .ftxBegin) rfl,
    ?twice⟩
  intro s
  obtain ⟨t, hrun, -⟩ := exists_run [.ftxBegin, .ftxBegin] s
  exact ⟨t, _, hrun, rfl⟩

/-- Settles O10: FTX_BYTE emits the codeword of its byte, which is two bytes for DLE and one for every other byte. -/
theorem ftxByteStuffsDle : Obligations.FtxByteStuffsDle := by
  refine ⟨runsAs_ftxByte, ?doubled, ?single, fun _ => answersIllegal_of_fb_reservedBitSet (m := .ftxByte) rfl⟩
  case doubled =>
    intro s
    rw [exec_ftxByte, stuffByte_dle]
  case single =>
    intro b s hb
    rw [exec_ftxByte, stuffByte_of_ne_dle hb]

/-- Settles O11: FTX_END is its response, and after FTX_BEGIN it closes the frame of the empty payload. -/
theorem ftxEndEmitsTheClosing : Obligations.FtxEndEmitsTheClosing := by
  refine ⟨runsAs_encode .ftxEnd, exec_ftxEnd, fun _ => answersIllegal_of_f0_reservedBitSet (m := .ftxEnd) rfl,
    ?emptyFrame⟩
  intro s
  obtain ⟨t, hrun, -⟩ := exists_run [.ftxBegin, .ftxEnd] s
  exact ⟨t, _, hrun, rfl, rfl⟩

end Sys2Proof.Machine

/-! PROOFS: the receiver commands FRX_INIT, FRX_BYTE, FRX_END and FRX_STAT (42_framer.md R138 to R141). FRX_BYTE has one
equation per state of the receiver; from them follows what it does over a frame (R131), whole or cut off in its payload, and
the examples of R139 to R141 are such frames. -/

namespace Sys2Proof.Machine

theorem runsAs_frxByte (b : Byte) : RunsAs (0x51000000 ||| b.setWidth 32) (.frxByte b) :=
  runsAs_opcode_or_operandArea (.frxByte b) 0x51000000 (by simp [Instr.mnemonic, Mnemonic.opcode])

theorem exec_frxInit (s : State) :
    exec .frxInit s = .next { s with
      regs := { s.regs with rxs := .start, rxwhy := .none }, response := some ⟨.ok, 0, []⟩ } := rfl

theorem exec_frxByte (b : Byte) (s : State) : exec (.frxByte b) s = .next (s.commit (frxByte b s.regs)) := rfl

theorem exec_frxEnd (s : State) :
    exec .frxEnd s = .next { s with
      regs := { s.regs with rxs := .start, rxwhy := .none }, response := some (frxEndResponse s.regs) } := rfl

theorem exec_frxStat (s : State) :
    exec .frxStat s = .next { s with
      response := some ⟨.ok, s.regs.rxs.code.setWidth 32 ||| (s.regs.rxwhy.code.setWidth 32 <<< 4), []⟩ } := rfl

@[simp] theorem effectOf_frxByte (b : Byte) (r : Registers) : effectOf (.frxByte b) r = frxByte b r := rfl

/-- The last response of a run is that of its last command, on the registers that the commands before it leave. -/
theorem exists_run_getLast? (is : List Instr) (i : Instr) (s : State) :
    ∃ t ps, Runs s (is ++ [i]) t ps ∧ ps.getLast? = some (effectOf i (effectsOf is s.regs).1).2 := by
  obtain ⟨t, hrun, -⟩ := exists_run (is ++ [i]) s
  exact ⟨t, _, hrun, by simp [effectsOf_append]⟩

section ReceiverStates

variable {r : Registers}

theorem frxByte_of_start (h : r.rxs = .start) (b : Byte) :
    frxByte b r = if b = dle then r.receiveTo .hdr [] else r.latchError .noDle := by
  simp only [frxByte, h]

theorem frxByte_of_hdr (h : r.rxs = .hdr) (b : Byte) :
    frxByte b r = if b = stx then r.receiveTo .data [] else r.latchError .noStx := by
  simp only [frxByte, h]

theorem frxByte_of_data (h : r.rxs = .data) (b : Byte) :
    frxByte b r = if b = dle then r.receiveTo .esc [] else r.receiveTo .data [b] := by
  simp only [frxByte, h]

theorem frxByte_of_esc (h : r.rxs = .esc) (b : Byte) :
    frxByte b r =
      if b = dle then r.receiveTo .data [dle]
      else if b = etx then r.receiveTo .done []
      else r.latchError .badEscape := by
  simp only [frxByte, h]

theorem frxByte_of_done (h : r.rxs = .done) (b : Byte) : frxByte b r = r.latchError .trailing := by
  simp only [frxByte, h]

theorem frxByte_of_error (h : r.rxs = .error) (b : Byte) : frxByte b r = (r, .raiseLatched r.rxwhy) := by
  simp only [frxByte, h]

end ReceiverStates

/-- What the receiver answers, inside the payload, to the codeword of a byte: the first DLE of a pair is held back. -/
def codewordResponses (b : Byte) : List Response :=
  if b = dle then [.okWith 0 [], .okWith 0 [dle]] else [.okWith 0 [b]]

section ReceivedFrames

variable (r : Registers)

/-- Inside the payload the codeword of a byte is taken in whole and leads back inside the payload (R131, R139). -/
theorem effectsOf_frxBytes_stuffByte (b : Byte) :
    effectsOf ((stuffByte b).map .frxByte) { r with rxs := .data } = ({ r with rxs := .data }, codewordResponses b) := by
  by_cases hb : b = dle
  · subst hb
    rfl
  · have hreceived : frxByte b { r with rxs := .data } = ({ r with rxs := .data }, .okWith 0 [b]) :=
      (frxByte_of_data rfl b).trans (if_neg hb)
    rw [stuffByte_of_ne_dle hb, codewordResponses, if_neg hb]
    simp [hreceived]

theorem effectsOf_frxBytes_stuff (p : List Byte) :
    effectsOf ((stuff p).map .frxByte) { r with rxs := .data } =
      ({ r with rxs := .data }, p.flatMap codewordResponses) := by
  induction p with
  | nil => rfl
  | cons b p ih =>
    rw [stuff, List.map_append, effectsOf_append, effectsOf_frxBytes_stuffByte, ih, List.flatMap_cons]

variable {r}

/-- The opening envelope and a stuffed payload: the receiver is inside the payload and has emitted it (R139). -/
theorem effectsOf_frxBytes_openFrame (h : r.rxs = .start) (p : List Byte) :
    effectsOf (([dle, stx] ++ stuff p).map .frxByte) r =
      ({ r with rxs := .data }, [.okWith 0 [], .okWith 0 []] ++ p.flatMap codewordResponses) := by
  have hopening : effectsOf ([dle, stx].map .frxByte) r = ({ r with rxs := .data }, [.okWith 0 [], .okWith 0 []]) := by
    simp [frxByte_of_start h, frxByte_of_hdr, Registers.receiveTo]
  rw [List.map_append, effectsOf_append, hopening, effectsOf_frxBytes_stuff]

/-- A whole frame: the closing envelope adds nothing to the payload and leaves the receiver in DONE (R139). -/
theorem effectsOf_frxBytes_frame (h : r.rxs = .start) (p : List Byte) :
    effectsOf ((frame p).map .frxByte) r =
      ({ r with rxs := .done },
        [.okWith 0 [], .okWith 0 []] ++ p.flatMap codewordResponses ++ [.okWith 0 [], .okWith 0 []]) := by
  rw [frame, List.map_append, effectsOf_append, effectsOf_frxBytes_openFrame h]
  rfl

end ReceivedFrames

/-- FRX_STAT by the two registers it reads. -/
theorem exec_frxStat_of_receiver {s : State} {x : RxState} {why : RxWhy} (hx : s.regs.rxs = x)
    (hwhy : s.regs.rxwhy = why) :
    exec .frxStat s = .next { s with response := some ⟨.ok, receiverStatusValue x why, []⟩ } := by
  subst hx hwhy
  rfl

/-- Settles O12: FRX_INIT writes constants to the receiver's registers, so a second one changes nothing more. -/
theorem frxInitArmsTheReceiver : Obligations.FrxInitArmsTheReceiver := by
  refine ⟨runsAs_encode .frxInit, exec_frxInit, fun _ => answersIllegal_of_f0_reservedBitSet (m := .frxInit) rfl,
    ?again⟩
  intro s t ht
  obtain rfl := (exec_eq_next_iff _ _ _).1 ht
  exact ⟨exec_frxInit _, exec_frxStat_of_receiver (x := .start) (why := .none) rfl rfl⟩

/-- Settles O13: one equation of FRX_BYTE per state, and the example is the frame of the payload 41 10 03. -/
theorem frxByteStepsTheReceiver : Obligations.FrxByteStepsTheReceiver := by
  refine ⟨runsAs_frxByte, ?byState, fun _ => answersIllegal_of_fb_reservedBitSet (m := .frxByte) rfl, ?wholeFrame⟩
  case byState =>
    intro b s go latch
    rw [exec_frxByte]
    cases hx : s.regs.rxs with
    | start =>
      rw [frxByte_of_start hx, apply_ite s.commit]
      rfl
    | hdr =>
      rw [frxByte_of_hdr hx, apply_ite s.commit]
      rfl
    | data =>
      rw [frxByte_of_data hx, apply_ite s.commit]
      rfl
    | esc =>
      rw [frxByte_of_esc hx, apply_ite s.commit, apply_ite s.commit]
      rfl
    | done =>
      rw [frxByte_of_done hx]
      rfl
    | error =>
      rw [frxByte_of_error hx]
      rfl
  case wholeFrame =>
    intro s h
    obtain ⟨t, hrun, hregs⟩ := exists_run ((frame [0x41, 0x10, 0x03]).map .frxByte) s
    rw [effectsOf_frxBytes_frame h] at hrun hregs
    exact ⟨t, _, hrun, rfl, hregs⟩

/-- The answer of FRX_END as R140 writes it. -/
theorem frxEndResponse_eq (r : Registers) :
    frxEndResponse r =
      if r.rxs = .done then ⟨.ok, 0, []⟩
      else if r.rxs = .error then ⟨.protocolError, r.rxwhy.code.setWidth 32, []⟩
      else ⟨.protocolError, 0x00000006, []⟩ := by
  rcases frxEndResponse_cases r with ⟨hdone, hp⟩ | ⟨herror, hp⟩ | ⟨hdone, herror, hp⟩
  · rw [if_pos hdone, hp]
    rfl
  · rw [if_neg (by simp [herror]), if_pos herror, hp]
    rfl
  · rw [if_neg hdone, if_neg herror, hp]
    rfl

/-- FRX_END on a receiver just re-armed: no frame has begun, so it answers TRUNCATED and re-arming again changes nothing. -/
theorem exec_frxEnd_of_armed (s : State) (p : Response) :
    exec .frxEnd (s.commit (s.regs.armReceiver, p)) =
      .next { s.commit (s.regs.armReceiver, p) with response := some ⟨.protocolError, 0x00000006, []⟩ } := rfl

/-- Settles O14: the answer is `frxEndResponse` of the registers before they are re-armed; the examples are the empty frame
and the frame of 10 03 without its closing envelope. -/
theorem frxEndReportsAndRearms : Obligations.FrxEndReportsAndRearms := by
  refine ⟨runsAs_encode .frxEnd, ?answer, fun _ => answersIllegal_of_f0_reservedBitSet (m := .frxEnd) rfl,
    ?again, ?emptyFrame, ?cutOff⟩
  case answer =>
    intro s
    rw [exec_frxEnd, frxEndResponse_eq]
  case again =>
    intro s t ht
    obtain rfl := (exec_eq_next_iff _ _ _).1 ht
    exact exec_frxEnd_of_armed _ _
  case emptyFrame =>
    intro s h
    obtain ⟨t, ps, hrun, hlast⟩ := exists_run_getLast? ((frame []).map .frxByte) .frxEnd s
    rw [effectsOf_frxBytes_frame h] at hlast
    exact ⟨t, ps, hrun, hlast⟩
  case cutOff =>
    intro s h
    obtain ⟨t, ps, hrun, hlast⟩ := exists_run_getLast? (([dle, stx] ++ stuff [0x10, 0x03]).map .frxByte) .frxEnd s
    rw [effectsOf_frxBytes_openFrame h] at hlast
    exact ⟨t, ps, hrun, hlast⟩

section StatusValue

variable (x : RxState) (why : RxWhy)

theorem receiverStatusValue_rxs : (receiverStatusValue x why).extractLsb' 0 3 = x.code := by
  ext j hj
  simp [receiverStatusValue, show j < 32 by omega, show j < 4 by omega, BitVec.getLsbD_eq_getElem hj]

theorem receiverStatusValue_rxwhy : (receiverStatusValue x why).extractLsb' 4 4 = why.code := by
  ext j hj
  simp [receiverStatusValue, show 4 + j < 32 by omega, BitVec.getLsbD_eq_getElem hj,
    BitVec.getLsbD_of_ge x.code (4 + j) (by omega)]

theorem receiverStatusValue_above : (receiverStatusValue x why).extractLsb' 8 24 = 0 := by
  ext j hj
  simp [receiverStatusValue, BitVec.getLsbD_of_ge x.code (8 + j) (by omega),
    BitVec.getLsbD_of_ge why.code (8 + j - 4) (by omega)]

theorem receiverStatusValue_bit_three : (receiverStatusValue x why).getLsbD 3 = false := by
  simp [receiverStatusValue]

theorem rxStateCode_eq_four_iff : x.code = 4 ↔ x = .done := by
  cases x <;> decide

theorem rxWhyCode_eq_zero_iff : why.code = 0 ↔ why = .none := by
  cases why <;> decide

/-- The two fields of the value tell DONE with no reason latched from every other receiver (R141). -/
theorem receiverStatusValue_eq_four_iff : receiverStatusValue x why = 0x04 ↔ x = .done ∧ why = .none := by
  constructor
  · intro h
    have hx := receiverStatusValue_rxs x why
    have hwhy := receiverStatusValue_rxwhy x why
    rw [h] at hx hwhy
    exact ⟨(rxStateCode_eq_four_iff x).1 hx.symm, (rxWhyCode_eq_zero_iff why).1 hwhy.symm⟩
  · rintro ⟨rfl, rfl⟩
    rfl

end StatusValue

/-- Settles O15: the value packs the codes of `rxs` and `rxwhy` in fields of their own; the examples are the registers after
reset, after the empty frame, and after a first byte that is not DLE. -/
theorem frxStatReadsTheReceiver : Obligations.FrxStatReadsTheReceiver := by
  refine ⟨runsAs_encode .frxStat, exec_frxStat, fun _ => answersIllegal_of_f0_reservedBitSet (m := .frxStat) rfl,
    ?value, exec_frxStat _, ?examples⟩
  case value =>
    intro x why
    exact ⟨receiverStatusValue_above x why, receiverStatusValue_bit_three x why, receiverStatusValue_eq_four_iff x why⟩
  case examples =>
    intro s h hwhy
    constructor
    · obtain ⟨t, ps, hrun, hlast⟩ := exists_run_getLast? ((frame []).map .frxByte) .frxStat s
      rw [effectsOf_frxBytes_frame h] at hlast
      simp only [effectOf, hwhy] at hlast
      exact ⟨t, ps, hrun, hlast⟩
    · obtain ⟨t, ps, hrun, hlast⟩ := exists_run_getLast? [.frxByte 0x41] .frxStat s
      rw [effectsOf_cons, effectOf_frxByte, frxByte_of_start h, if_neg (by decide)] at hlast
      simp only [effectsOf_nil, effectOf, Registers.latchError_fst_rxs, Registers.latchError_fst_rxwhy] at hlast
      exact ⟨t, ps, hrun, hlast⟩

end Sys2Proof.Machine

/-! PROOFS: the reset values of the registers, and the three INIT commands that give them again, each to its own unit
(70_reset_and_hazards.md R181). -/

namespace Sys2Proof.Machine

/-- The registers a command leaves are those of its effect. -/
theorem regs_of_exec_eq_next {i : Instr} {s t : State} (h : exec i s = .next t) : t.regs = (effectOf i s.regs).1 := by
  rw [(exec_eq_next_iff i s t).1 h, State.commit_regs]

theorem Registers.armGenerator_agreeOn_reset (r : Registers) : r.armGenerator.agreeOn .generator Registers.reset :=
  r.armGenerator_crc

theorem Registers.armChecker_agreeOn_reset (r : Registers) : r.armChecker.agreeOn .checker Registers.reset :=
  ⟨r.armChecker_vcrc, r.armChecker_vhold0, r.armChecker_vhold1, r.armChecker_vcnt⟩

theorem Registers.armReceiver_agreeOn_reset (r : Registers) : r.armReceiver.agreeOn .receiver Registers.reset :=
  ⟨r.armReceiver_rxs, r.armReceiver_rxwhy⟩

/-- Settles O24: the reset values are those of the table in R181, and each INIT arms its unit, which gives the unit's registers
these values whatever they held before. -/
theorem resetGivesEveryRegisterItsValue : Obligations.ResetGivesEveryRegisterItsValue := by
  refine ⟨rfl, ?generator, ?checker, ?receiver⟩
  case generator =>
    intro s t ht
    rw [regs_of_exec_eq_next ht]
    exact s.regs.armGenerator_agreeOn_reset
  case checker =>
    intro s t ht
    rw [regs_of_exec_eq_next ht]
    exact s.regs.armChecker_agreeOn_reset
  case receiver =>
    intro s t ht
    rw [regs_of_exec_eq_next ht]
    exact s.regs.armReceiver_agreeOn_reset

end Sys2Proof.Machine

/-! PROOFS: encoding and decoding are inverse (30_encoding.md R60 to R64, R72), the rows of the opcode table are disjoint, and
the assembler's operand check (R70). A format's mask parts a word into the bits it fixes and the operand. -/

namespace Sys2Proof

theorem Mnemonic.mnemonic_readOperand (m : Mnemonic) (w : Word) : (m.readOperand w).mnemonic = m := by
  cases m <;> rfl

/-- The free bits of a format are those of its operand field. -/
theorem Format.not_mask_getElem (f : Format) {j : Nat} (hj : j < 32) :
    (~~~ f.mask)[j] = decide (j < f.operandBits) := by
  unfold Format.mask
  by_cases h : j < f.operandBits
  · simp [h]
  · simp [h, -BitVec.reduceAllOnes]

/-- The operand field of a word is all the bits that the format's mask leaves free. -/
theorem Format.operandField_eq (f : Format) (w : Word) :
    (w.extractLsb' 0 f.operandBits).setWidth 32 = w &&& ~~~ f.mask := by
  ext j hj
  rw [BitVec.getElem_and, f.not_mask_getElem, BitVec.getElem_setWidth, BitVec.getLsbD_extractLsb', Nat.zero_add,
    BitVec.getLsbD_eq_getElem hj, Bool.and_comm]

/-- What decoding reads of a word is its operand field (R61 to R63). -/
theorem Mnemonic.operandArea_readOperand (m : Mnemonic) (w : Word) :
    (m.readOperand w).operandArea = w &&& ~~~ m.format.mask := by
  cases m with
  | enc => exact Format.fc.operandField_eq w
  | dec | crcFeed | vfyFeed | ftxByte | frxByte => exact Format.fb.operandField_eq w
  | crcInit | crcTag | vfyInit | vfyEnd | ftxBegin | ftxEnd | frxInit | frxEnd | frxStat =>
    simp [Mnemonic.readOperand, Instr.operandArea, Mnemonic.format, Format.mask, Format.operandBits]

/-- A word of a mnemonic's row is put together again from its opcode and the operand read from it. -/
theorem Mnemonic.encode_readOperand {m : Mnemonic} {w : Word} (h : m.row.covers w = true) :
    encode (m.readOperand w) = w := by
  have hfixed : w &&& m.format.mask = m.opcode.setWidth 32 <<< 24 := beq_iff_eq.1 h
  rw [encode, m.mnemonic_readOperand, m.operandArea_readOperand, ← hfixed]
  ext j hj
  simp [← Bool.and_or_distrib_left]

theorem Mnemonic.opcode_injective : Function.Injective Mnemonic.opcode := by
  intro m n h
  have hsome := Machine.mnemonicOf_opcode m
  rw [h, Machine.mnemonicOf_opcode] at hsome
  exact (Option.some.inj hsome).symm

theorem mem_opcodeTable_iff (r : OpcodeRow) : r ∈ opcodeTable ↔ ∃ m : Mnemonic, m.row = r := by
  simp [opcodeTable_eq_map_row, Mnemonic.mem_all]

/-- Settles O17: the three fields that `encode` writes are those that `decode` reads. -/
theorem decodeOfEncodeIsTheCommand : Obligations.DecodeOfEncodeIsTheCommand :=
  fun i _ => Machine.decode_encode i

/-- Settles O18: a decoded word is of its mnemonic's row, and the row's mask parts it into opcode and operand. -/
theorem encodeOfDecodeIsTheWord : Obligations.EncodeOfDecodeIsTheWord := by
  intro w i h
  obtain ⟨m, hop, hzero, rfl⟩ := (Machine.decode_eq_ok_iff w i).1 h
  exact Mnemonic.encode_readOperand ((row_covers_iff m w).2 ⟨hop, hzero⟩)

/-- Settles O19: a row that covers a word has the word's opcode, and the opcodes are distinct. -/
theorem opcodeRowsDoNotOverlap : Obligations.OpcodeRowsDoNotOverlap := by
  intro w r hr q hq hrw hqw
  obtain ⟨m, rfl⟩ := (mem_opcodeTable_iff r).1 hr
  obtain ⟨n, rfl⟩ := (mem_opcodeTable_iff q).1 hq
  have hm := ((row_covers_iff m w).1 hrw).1
  have hn := ((row_covers_iff n w).1 hqw).1
  rw [Mnemonic.opcode_injective (hm.symm.trans hn)]

/-- Settles O20: each of the nine words is decoded by evaluation. -/
theorem sampleWordsDecode : Obligations.SampleWordsDecode := by
  unfold Obligations.SampleWordsDecode
  decide

end Sys2Proof

namespace Sys2Proof.Machine

theorem byteOperand_eq_some_iff (o : SourceOperand) (b : Byte) : byteOperand o = some b ↔ o = .byte b.toNat := by
  cases o with
  | none | codePoint v => simp [byteOperand]
  | byte v =>
    simp only [byteOperand, Option.ite_none_right_eq_some, Option.some.injEq, SourceOperand.byte.injEq]
    bv_omega

theorem codePointOperand_eq_some_iff (o : SourceOperand) (cp : CodePoint) :
    codePointOperand o = some cp ↔ o = .codePoint cp.toNat := by
  cases o with
  | none | byte v => simp [codePointOperand]
  | codePoint v =>
    simp only [codePointOperand, Option.ite_none_right_eq_some, Option.some.injEq, SourceOperand.codePoint.injEq]
    bv_omega

theorem bareCommand_eq_some_iff (o : SourceOperand) (i j : Instr) : bareCommand o i = some j ↔ o = .none ∧ i = j := by
  simp [bareCommand]

end Sys2Proof.Machine

namespace Sys2Proof

/-- An operand in the form that a format takes in source text (R70). -/
def Format.sourceOperand (f : Format) (value : Nat) : SourceOperand :=
  match f with
  | .f0 => .none
  | .fb => .byte value
  | .fc => .codePoint value

/-- The operand as the source of a command writes it (R70). -/
def Instr.sourceOperand (i : Instr) : SourceOperand := i.mnemonic.format.sourceOperand i.operandValue

/-- The two checks of R70 at once. -/
theorem SourceCommand.wellFormed_iff (c : SourceCommand) :
    c.wellFormed = true ↔
      ∃ v < 2 ^ c.mnemonic.format.operandBits, c.operand = c.mnemonic.format.sourceOperand v := by
  obtain ⟨m, o⟩ := c
  simp only [SourceCommand.wellFormed, SourceCommand.operandKindOk, SourceCommand.operandFits]
  cases m.format with
  | f0 => cases o <;> simp [Format.sourceOperand, Format.operandBits]
  | fb | fc => cases o <;> simp [Format.sourceOperand]

theorem Instr.operandValue_lt (i : Instr) : i.operandValue < 2 ^ i.mnemonic.format.operandBits := by
  cases i with
  | enc cp => exact cp.isLt
  | dec b | crcFeed b | vfyFeed b | ftxByte b | frxByte b => exact b.isLt
  | crcInit | crcTag | vfyInit | vfyEnd | ftxBegin | ftxEnd | frxInit | frxEnd | frxStat => exact Nat.one_pos

/-- What decoding reads of a word as a number: the low bits that the format's field has. -/
theorem Mnemonic.operandValue_readOperand (m : Mnemonic) (w : Word) :
    (m.readOperand w).operandValue = w.toNat % 2 ^ m.format.operandBits := by
  cases m with
  | enc | dec | crcFeed | vfyFeed | ftxByte | frxByte => exact BitVec.extractLsb'_toNat 0 _ w
  | crcInit | crcTag | vfyInit | vfyEnd | ftxBegin | ftxEnd | frxInit | frxEnd | frxStat => exact (Nat.mod_one _).symm

theorem Format.operandBits_le (f : Format) : f.operandBits ≤ 32 := by
  cases f <;> decide

/-- An operand that fits a mnemonic's field is that of a command. -/
theorem Mnemonic.exists_operandValue (m : Mnemonic) {v : Nat} (hv : v < 2 ^ m.format.operandBits) :
    ∃ i : Instr, i.mnemonic = m ∧ i.operandValue = v := by
  have hword : v < 2 ^ 32 := hv.trans_le (Nat.pow_le_pow_right Nat.two_pos m.format.operandBits_le)
  refine ⟨m.readOperand (BitVec.ofNat 32 v), m.mnemonic_readOperand _, ?_⟩
  rw [m.operandValue_readOperand, BitVec.toNat_ofNat, Nat.mod_eq_of_lt hword, Nat.mod_eq_of_lt hv]

end Sys2Proof

namespace Sys2Proof.Machine

/-- The assembler makes a command exactly of its own mnemonic and its own operand (R70). -/
theorem assembleCommand_eq_some_iff (c : SourceCommand) (i : Instr) :
    assembleCommand c = some i ↔ c.mnemonic = i.mnemonic ∧ c.operand = i.sourceOperand := by
  obtain ⟨m, o⟩ := c
  constructor
  · intro h
    cases m with
    | enc =>
      obtain ⟨cp, hcp, rfl⟩ := Option.map_eq_some_iff.1 h
      exact ⟨rfl, (codePointOperand_eq_some_iff o cp).1 hcp⟩
    | dec | crcFeed | vfyFeed | ftxByte | frxByte =>
      obtain ⟨b, hb, rfl⟩ := Option.map_eq_some_iff.1 h
      exact ⟨rfl, (byteOperand_eq_some_iff o b).1 hb⟩
    | crcInit | crcTag | vfyInit | vfyEnd | ftxBegin | ftxEnd | frxInit | frxEnd | frxStat =>
      obtain ⟨ho, rfl⟩ := (bareCommand_eq_some_iff o _ i).1 h
      exact ⟨rfl, ho⟩
  · rintro ⟨rfl, rfl⟩
    cases i with
    | enc cp => exact Option.map_eq_some_iff.2 ⟨cp, (codePointOperand_eq_some_iff _ cp).2 rfl, rfl⟩
    | dec b | crcFeed b | vfyFeed b | ftxByte b | frxByte b =>
      exact Option.map_eq_some_iff.2 ⟨b, (byteOperand_eq_some_iff _ b).2 rfl, rfl⟩
    | crcInit | crcTag | vfyInit | vfyEnd | ftxBegin | ftxEnd | frxInit | frxEnd | frxStat => rfl

/-- Settles O60: a command is assembled from its mnemonic and its operand, and the operands of the commands are those that
fit their fields. -/
theorem assemblerTakesWhatFits : Obligations.AssemblerTakesWhatFits := by
  refine ⟨fun c => ?taken, fun c i h => ?command⟩
  case taken =>
    rw [SourceCommand.wellFormed_iff]
    constructor
    · rintro ⟨i, hi⟩
      obtain ⟨hm, ho⟩ := (assembleCommand_eq_some_iff c i).1 hi
      rw [hm]
      exact ⟨i.operandValue, i.operandValue_lt, ho⟩
    · rintro ⟨v, hv, ho⟩
      obtain ⟨i, hm, rfl⟩ := c.mnemonic.exists_operandValue hv
      exact ⟨i, (assembleCommand_eq_some_iff c i).2 ⟨hm.symm, by rw [ho, ← hm]; rfl⟩⟩
  case command =>
    obtain ⟨hm, ho⟩ := (assembleCommand_eq_some_iff c i).1 h
    refine ⟨hm.symm, decode_encode i, ?_⟩
    rw [ho, hm]
    rfl

end Sys2Proof.Machine

/-! PROOFS: the units (10_state.md R23, R31, 70_reset_and_hazards.md R188). A command changes only its own unit's registers
(`effectOf_agreeOn_other`) and what it does depends only on them (`effectOf_local`); that commands of different units commute
follows from these two alone. -/

namespace Sys2Proof.Machine

namespace Registers

theorem agreeOn_refl (u : BlockUnit) (r : Registers) : r.agreeOn u r := by
  cases u <;> simp [agreeOn]

theorem agreeOn.symm {u : BlockUnit} {r t : Registers} (h : r.agreeOn u t) : t.agreeOn u r := by
  cases u <;> simp_all [agreeOn]

theorem agreeOn.trans {u : BlockUnit} {r t v : Registers} (h : r.agreeOn u t) (h' : t.agreeOn u v) : r.agreeOn u v := by
  cases u <;> simp_all [agreeOn]

/-- Every register is of some unit (R23). -/
theorem eq_of_agreeOn {r t : Registers} (h : ∀ u, r.agreeOn u t) : r = t := by
  have hcrc : r.crc = t.crc := h .generator
  obtain ⟨hvcrc, hhold0, hhold1, hcnt⟩ := h .checker
  obtain ⟨hrxs, hwhy⟩ := h .receiver
  cases r
  cases t
  simp_all

theorem agreeOn_of_write_generator {u : BlockUnit} (hu : u ≠ .generator) (r : Registers) (c : Crc16) :
    { r with crc := c }.agreeOn u r := by
  cases u <;> simp_all [agreeOn]

theorem agreeOn_of_write_checker {u : BlockUnit} (hu : u ≠ .checker) (r : Registers) (c : Crc16) (h0 h1 : Byte)
    (n : Fin 3) : { r with vcrc := c, vhold0 := h0, vhold1 := h1, vcnt := n }.agreeOn u r := by
  cases u <;> simp_all [agreeOn]

theorem agreeOn_of_write_receiver {u : BlockUnit} (hu : u ≠ .receiver) (r : Registers) (x : RxState) (w : RxWhy) :
    { r with rxs := x, rxwhy := w }.agreeOn u r := by
  cases u <;> simp_all [agreeOn]

end Registers

theorem vfyFeed_writes_checker (b : Byte) (r : Registers) :
    ∃ c h0 h1 n, (vfyFeed b r).1 = { r with vcrc := c, vhold0 := h0, vhold1 := h1, vcnt := n } := by
  rcases vfyFeed_cases (b := b) (r := r) Prod.mk.eta.symm with ⟨-, ht, -⟩ | ⟨-, ht, -⟩ | ⟨-, ht, -⟩
  all_goals exact ⟨_, _, _, _, ht⟩

theorem frxByte_writes_receiver (b : Byte) (r : Registers) :
    ∃ x w, (frxByte b r).1 = { r with rxs := x, rxwhy := w } := by
  rcases frxByte_cases (b := b) (r := r) Prod.mk.eta.symm with ⟨x, o, ht, -⟩ | ⟨w, ht, -⟩ | ⟨-, ht, -⟩
  · exact ⟨x, _, congrArg Prod.fst ht⟩
  · exact ⟨.error, w, congrArg Prod.fst ht⟩
  · exact ⟨_, _, ht⟩

/-- A command leaves the registers of every other unit as they are (R188). -/
theorem effectOf_agreeOn_other (i : Instr) {u : BlockUnit} (hu : u ≠ i.unit) (r : Registers) :
    (effectOf i r).1.agreeOn u r := by
  cases i with
  | enc | dec | crcTag | ftxBegin | ftxByte | ftxEnd | frxStat => exact r.agreeOn_refl u
  | crcInit | crcFeed => exact r.agreeOn_of_write_generator hu _
  | vfyInit | vfyEnd => exact r.agreeOn_of_write_checker hu _ _ _ _
  | vfyFeed b =>
    obtain ⟨c, h0, h1, n, ht⟩ := vfyFeed_writes_checker b r
    rw [effectOf_vfyFeed, ht]
    exact r.agreeOn_of_write_checker hu _ _ _ _
  | frxInit | frxEnd => exact r.agreeOn_of_write_receiver hu _ _
  | frxByte b =>
    obtain ⟨x, w, ht⟩ := frxByte_writes_receiver b r
    rw [effectOf_frxByte, ht]
    exact r.agreeOn_of_write_receiver hu _ _

/-- Commands of one unit leave the registers of every other unit as they are. -/
theorem effectsOf_agreeOn_other {is : List Instr} {u v : BlockUnit} (his : ∀ i ∈ is, i.unit = u) (hv : v ≠ u)
    (r : Registers) : (effectsOf is r).1.agreeOn v r := by
  induction is generalizing r with
  | nil => exact r.agreeOn_refl v
  | cons i is ih =>
    obtain ⟨rfl, htail⟩ := List.forall_mem_cons.1 his
    exact (ih htail _).trans (effectOf_agreeOn_other i hv r)

/-- Settles O32: a command is one commit of its effect, which changes its own unit's registers only. -/
theorem commandsLeaveOtherUnitsAlone : Obligations.CommandsLeaveOtherUnitsAlone := by
  intro i s t h
  obtain rfl := (exec_eq_next_iff i s t).1 h
  exact ⟨fun u hu => effectOf_agreeOn_other i hu s.regs, rfl, rfl⟩

/-- Of the commands only the two that re-arm the receiver leave ERROR (R169). -/
theorem effectOf_rxs_of_error {i : Instr} {r : Registers} (h : r.rxs = .error) :
    (effectOf i r).1.rxs = .error ∨ i = .frxInit ∨ i = .frxEnd := by
  by_cases hu : BlockUnit.receiver = i.unit
  · cases i with
    | frxByte b => exact .inl (by rw [effectOf_frxByte, frxByte_of_error h, h])
    | frxStat => exact .inl h
    | frxInit => exact .inr (.inl rfl)
    | frxEnd => exact .inr (.inr rfl)
    | enc | dec | crcInit | crcFeed | crcTag | vfyInit | vfyFeed | vfyEnd | ftxBegin | ftxByte | ftxEnd => cases hu
  · exact .inl ((effectOf_agreeOn_other i hu r).1.trans h)

/-- Settles O35: a step without an event, with a read or with an illegal word changes no register, and a command leaves ERROR
only as `effectOf_rxs_of_error` says. -/
theorem errorIsLeftOnlyByRearming : Obligations.ErrorIsLeftOnlyByRearming := by
  intro s t hs hstep ht
  rcases step_cases hstep with ⟨-, rfl⟩ | ⟨w, later, i, hp, hd, hexec⟩ | ⟨w, later, e, -, -, rfl⟩ |
    ⟨later, -, rfl⟩ | ⟨later, hp, -⟩
  · exact absurd hs ht
  · rw [regs_of_exec_eq_next hexec, State.acceptCommand_regs] at ht
    rcases effectOf_rxs_of_error (i := i) hs with herror | rfl | rfl
    · exact absurd herror ht
    · exact ⟨later, .inr ⟨w, hp, .inl hd⟩⟩
    · exact ⟨later, .inr ⟨w, hp, .inr hd⟩⟩
  · exact absurd hs ht
  · exact absurd hs ht
  · exact ⟨later, .inl hp⟩

/-! ## What a command does depends on its own unit's registers only -/

/-- Two results with the same response and the same registers of a unit. -/
def ResultsAgree (u : BlockUnit) (p q : Registers × Response) : Prop := p.2 = q.2 ∧ p.1.agreeOn u q.1

theorem crcTagResponse_local {r t : Registers} (h : r.agreeOn .generator t) : crcTagResponse r = crcTagResponse t := by
  have hcrc : r.crc = t.crc := h
  rw [crcTagResponse, crcTagResponse, hcrc]

theorem vfyFeed_local (b : Byte) {r t : Registers} (h : r.agreeOn .checker t) :
    ResultsAgree .checker (vfyFeed b r) (vfyFeed b t) := by
  obtain ⟨hcrc, h0, h1, hcnt⟩ := h
  rcases vfyFeed_cases (b := b) (r := r) Prod.mk.eta.symm with ⟨hn, -⟩ | ⟨hn, -⟩ | ⟨hn, -⟩
  · rw [vfyFeed_of_vcnt_zero b hn, vfyFeed_of_vcnt_zero b (hcnt ▸ hn)]
    exact ⟨rfl, hcrc, rfl, h1, rfl⟩
  · rw [vfyFeed_of_vcnt_one b hn, vfyFeed_of_vcnt_one b (hcnt ▸ hn)]
    exact ⟨rfl, hcrc, h0, rfl, rfl⟩
  · rw [vfyFeed_of_vcnt_two b hn, vfyFeed_of_vcnt_two b (hcnt ▸ hn), h0, hcrc]
    exact ⟨rfl, rfl, h1, rfl, hcnt⟩

theorem vfyEndResponse_local {r t : Registers} (h : r.agreeOn .checker t) : vfyEndResponse r = vfyEndResponse t := by
  obtain ⟨hcrc, h0, h1, hcnt⟩ := h
  rw [vfyEndResponse_eq, vfyEndResponse_eq, receivedTag, receivedTag, expectedTag, expectedTag, hcrc, h0, h1, hcnt]

theorem receiveTo_local {r t : Registers} (h : r.agreeOn .receiver t) (x : RxState) (o : List Byte) :
    ResultsAgree .receiver (r.receiveTo x o) (t.receiveTo x o) := ⟨rfl, rfl, h.2⟩

theorem latchError_local (r t : Registers) (w : RxWhy) :
    ResultsAgree .receiver (r.latchError w) (t.latchError w) := ⟨rfl, rfl, rfl⟩

theorem frxByte_local (b : Byte) {r t : Registers} (h : r.agreeOn .receiver t) :
    ResultsAgree .receiver (frxByte b r) (frxByte b t) := by
  cases hr : r.rxs with
  | start =>
    rw [frxByte_of_start hr, frxByte_of_start (h.1 ▸ hr)]
    split_ifs
    · exact receiveTo_local h _ _
    · exact latchError_local r t _
  | hdr =>
    rw [frxByte_of_hdr hr, frxByte_of_hdr (h.1 ▸ hr)]
    split_ifs
    · exact receiveTo_local h _ _
    · exact latchError_local r t _
  | data =>
    rw [frxByte_of_data hr, frxByte_of_data (h.1 ▸ hr)]
    split_ifs
    · exact receiveTo_local h _ _
    · exact receiveTo_local h _ _
  | esc =>
    rw [frxByte_of_esc hr, frxByte_of_esc (h.1 ▸ hr)]
    split_ifs
    · exact receiveTo_local h _ _
    · exact receiveTo_local h _ _
    · exact latchError_local r t _
  | done =>
    rw [frxByte_of_done hr, frxByte_of_done (h.1 ▸ hr)]
    exact latchError_local r t _
  | error =>
    rw [frxByte_of_error hr, frxByte_of_error (h.1 ▸ hr), h.2]
    exact ⟨rfl, h⟩

theorem frxEndResponse_local {r t : Registers} (h : r.agreeOn .receiver t) : frxEndResponse r = frxEndResponse t := by
  rw [frxEndResponse_eq, frxEndResponse_eq, h.1, h.2]

/-- A command's response and what it leaves in its unit depend on that unit's registers only (R31). -/
theorem effectOf_local (i : Instr) {r t : Registers} (h : r.agreeOn i.unit t) :
    ResultsAgree i.unit (effectOf i r) (effectOf i t) := by
  cases i with
  | enc | dec | ftxBegin | ftxByte | ftxEnd => exact ⟨rfl, trivial⟩
  | crcInit => exact ⟨rfl, rfl⟩
  | crcFeed b => exact ⟨rfl, congrArg (crcStep · b) h⟩
  | crcTag => exact ⟨crcTagResponse_local h, h⟩
  | vfyInit => exact ⟨rfl, rfl, rfl, rfl, rfl⟩
  | vfyFeed b => exact vfyFeed_local b h
  | vfyEnd => exact ⟨vfyEndResponse_local h, rfl, rfl, rfl, rfl⟩
  | frxInit => exact ⟨rfl, rfl, rfl⟩
  | frxByte b => exact frxByte_local b h
  | frxEnd => exact ⟨frxEndResponse_local h, rfl, rfl⟩
  | frxStat => exact ⟨by simp only [effectOf, h.1, h.2], h⟩

/-- Settles O33: a command is one commit of its effect, which is local to its unit. -/
theorem responsesDependOnOneUnit : Obligations.ResponsesDependOnOneUnit := by
  intro i s s' t t' hagree h h'
  obtain rfl := (exec_eq_next_iff i s t).1 h
  obtain rfl := (exec_eq_next_iff i s' t').1 h'
  obtain ⟨hresponse, hregs⟩ := effectOf_local i hagree
  exact ⟨congrArg some hresponse, hregs⟩

/-- A command of another unit in between changes nothing of what a command does. -/
theorem effectOf_after_other_unit {i j : Instr} (h : i.unit ≠ j.unit) (r : Registers) :
    ResultsAgree i.unit (effectOf i (effectOf j r).1) (effectOf i r) :=
  effectOf_local i (effectOf_agreeOn_other j h r)

/-- Registers after two commands of different units, unit by unit: one of them is the other order's, and the rest is left. -/
theorem effectOf_comm {i j : Instr} (h : i.unit ≠ j.unit) (r : Registers) :
    (effectOf j (effectOf i r).1).1 = (effectOf i (effectOf j r).1).1 := by
  refine Registers.eq_of_agreeOn fun u => ?_
  by_cases hi : u = i.unit
  · subst hi
    exact (effectOf_agreeOn_other j h _).trans (effectOf_after_other_unit h r).2.symm
  by_cases hj : u = j.unit
  · subst hj
    exact (effectOf_after_other_unit h.symm r).2.trans (effectOf_agreeOn_other i h.symm _).symm
  · have hij := (effectOf_agreeOn_other j hj _).trans (effectOf_agreeOn_other i hi r)
    have hji := (effectOf_agreeOn_other i hi _).trans (effectOf_agreeOn_other j hj r)
    exact hij.trans hji.symm

/-- Settles O34: each command answers as if the other had not run, and the registers are those of `effectOf_comm`. -/
theorem commandsOfDifferentUnitsCommute : Obligations.CommandsOfDifferentUnitsCommute := by
  intro i j s h
  obtain ⟨t, hrun, hregs⟩ := exists_run [i, j] s
  obtain ⟨t', hrun', hregs'⟩ := exists_run [j, i] s
  simp only [effectsOf_cons, effectsOf_nil] at hrun hregs hrun' hregs'
  rw [(effectOf_after_other_unit h.symm s.regs).1] at hrun
  rw [(effectOf_after_other_unit h s.regs).1] at hrun'
  exact ⟨t, t', _, _, hrun, hrun', by rw [hregs, hregs', effectOf_comm h]⟩

/-! ## Commands that change no register, and the three INIT commands -/

/-- R47's seven commands. -/
def Mnemonic.ChangesNoRegister (m : Mnemonic) : Prop :=
  m = .enc ∨ m = .dec ∨ m = .crcTag ∨ m = .ftxBegin ∨ m = .ftxByte ∨ m = .ftxEnd ∨ m = .frxStat

theorem effectOf_fst_of_changesNoRegister {i : Instr} (h : Mnemonic.ChangesNoRegister i.mnemonic) (r : Registers) :
    (effectOf i r).1 = r := by
  cases i with
  | enc | dec | crcTag | ftxBegin | ftxByte | ftxEnd | frxStat => rfl
  | crcInit | crcFeed | vfyInit | vfyFeed | vfyEnd | frxInit | frxByte | frxEnd =>
    simp [Mnemonic.ChangesNoRegister, Instr.mnemonic] at h

/-- Settles O31: a command that changes no register commits only its response, so it finds the same registers again. -/
theorem sevenCommandsChangeNoRegister : Obligations.SevenCommandsChangeNoRegister := by
  intro i s t hi h
  have hregs : ∀ r, (effectOf i r).1 = r := effectOf_fst_of_changesNoRegister hi
  obtain rfl := (exec_eq_next_iff i s t).1 h
  constructor
  · simp [State.commit, hregs]
  · rw [exec_eq_next_iff, State.commit_regs, hregs]
    rfl

/-- Settles O25: each INIT writes its own unit's reset values, and the three units hold all registers. -/
theorem threeInitsEqualReset : Obligations.ThreeInitsEqualReset := by
  intro s
  obtain ⟨t, hrun, hregs⟩ := exists_run [.crcInit, .vfyInit, .frxInit] s
  exact ⟨t, _, hrun, hregs⟩

end Sys2Proof.Machine

/-! PROOFS: single steps and runs of any events (00_scope.md R5, 30_encoding.md R66, 60_exceptions.md R160, R174,
70_reset_and_hazards.md R180), and the invariant that every step keeps (10_state.md R25 to R29). -/

namespace Sys2Proof.Machine

/-! ## One step -/

theorem runWord_of_decode_eq_ok {w : Word} {i : Instr} (h : decode w = .ok i) (s : State) : runWord w s = exec i s := by
  rw [runWord_eq_commit, wordEffect_legal h, exec_eq_commit]

theorem step_of_pending_nil {s : State} (h : s.pending = []) : step s = .next s := by
  simp only [step, h]

theorem step_of_pending_cons {s : State} {e : HostEvent} {later : List HostEvent} (h : s.pending = e :: later) :
    step s = .next { afterEvent s e with pending := later } := by
  have hstep := step_event e later s
  rwa [← h] at hstep

/-- All that a step can do: nothing, or what the oldest event does. -/
theorem step_eq_next_cases {s t : State} (h : step s = .next t) :
    (s.pending = [] ∧ t = s) ∨
    ∃ e later, s.pending = e :: later ∧ t = { afterEvent s e with pending := later } := by
  cases hp : s.pending with
  | nil =>
    rw [step_of_pending_nil hp] at h
    cases h
    exact .inl ⟨rfl, rfl⟩
  | cons e later =>
    rw [step_of_pending_cons hp] at h
    cases h
    exact .inr ⟨e, later, rfl, rfl⟩

/-- Settles O21: a step on a command word is its execution, and a word that decodes is executed as its command. -/
theorem stepRunsTheDecodedCommand : Obligations.StepRunsTheDecodedCommand :=
  fun _ _ _ => ⟨fun _ hdecode => runWord_of_decode_eq_ok hdecode _, rfl⟩

/-- Settles O23: the cases of `step` without an event and with a read. -/
theorem blockIsIdleBetweenCommands : Obligations.BlockIsIdleBetweenCommands :=
  ⟨fun _ hpending => step_of_pending_nil hpending, fun s later => step_event .readResponse later s⟩

/-! ## Responses are well formed -/

theorem stuffByte_length_le (b : Byte) : (stuffByte b).length ≤ 2 := by
  unfold stuffByte
  split_ifs <;> simp

theorem Response.raise_wf (e : Status) (v : Word) : (Response.raise e v).wf := by
  simp [Response.wf]

theorem Response.raiseProtocol_wf (x : Reason) : (Response.raiseProtocol x).wf := Response.raise_wf _ _

theorem Response.raiseLatched_wf (w : RxWhy) : (Response.raiseLatched w).wf := Response.raise_wf _ _

theorem Response.okWith_wf {o : List Byte} (h : o.length ≤ 2) (v : Word) : (Response.okWith v o).wf := by
  simpa [Response.wf] using h

theorem encResponse_wf (rom : CharRom) (cp : CodePoint) : (encResponse rom cp).wf := by
  rcases encResponse_cases rom cp with ⟨b, -, h⟩ | ⟨-, h⟩
  · exact h ▸ Response.okWith_wf (by simp) _
  · exact h ▸ Response.raise_wf _ _

theorem vfyFeed_snd_wf (b : Byte) (r : Registers) : (vfyFeed b r).2.wf := by
  rcases vfyFeed_cases (b := b) (r := r) Prod.mk.eta.symm with ⟨-, -, h⟩ | ⟨-, -, h⟩ | ⟨-, -, h⟩
  · exact h ▸ Response.okWith_wf (by simp) 0
  · exact h ▸ Response.okWith_wf (by simp) 0
  · exact h ▸ Response.okWith_wf (by simp) 0

theorem vfyEndResponse_wf (r : Registers) : (vfyEndResponse r).wf := by
  rcases vfyEndResponse_cases r with ⟨-, h⟩ | ⟨-, -, h⟩ | ⟨-, -, h⟩
  · exact h ▸ Response.raiseProtocol_wf _
  · exact h ▸ Response.raise_wf _ _
  · exact h ▸ Response.okWith_wf (by simp) _

theorem frxByte_snd_wf (b : Byte) (r : Registers) : (frxByte b r).2.wf := by
  rcases frxByte_cases (b := b) (r := r) Prod.mk.eta.symm with ⟨x, o, h, hcase⟩ | ⟨w, h, -⟩ | ⟨-, -, h⟩
  · have ho : o.length ≤ 2 := by
      rcases hcase with h | h | h | h | h | h <;> simp [h]
    exact congrArg Prod.snd h ▸ Response.okWith_wf ho 0
  · exact congrArg Prod.snd h ▸ Response.raiseLatched_wf w
  · exact h ▸ Response.raiseLatched_wf _

theorem frxEndResponse_wf (r : Registers) : (frxEndResponse r).wf := by
  rcases frxEndResponse_cases r with ⟨-, h⟩ | ⟨-, h⟩ | ⟨-, -, h⟩
  · exact h ▸ Response.okWith_wf (by simp) _
  · exact h ▸ Response.raiseLatched_wf _
  · exact h ▸ Response.raiseProtocol_wf _

/-- Every command answers as R66 says. -/
theorem effectOf_snd_wf (i : Instr) (r : Registers) : (effectOf i r).2.wf := by
  cases i with
  | enc cp => exact encResponse_wf _ cp
  | ftxByte b => exact Response.okWith_wf (stuffByte_length_le b) 0
  | vfyFeed b => exact vfyFeed_snd_wf b r
  | vfyEnd => exact vfyEndResponse_wf r
  | frxByte b => exact frxByte_snd_wf b r
  | frxEnd => exact frxEndResponse_wf r
  | dec | crcInit | crcFeed | vfyInit | ftxBegin | ftxEnd | frxInit | frxStat => exact Response.okWith_wf (by simp) _
  | crcTag => exact Response.okWith_wf (by simp [tagBytes]) _

/-- A word is a command's or illegal, and then it changes no register. -/
theorem wordEffect_cases (w : Word) (r : Registers) :
    (∃ i, decode w = .ok i ∧ wordEffect w r = effectOf i r) ∨
    (legalWord w = false ∧ wordEffect w r = (r, .raise .illegalCommand w)) := by
  cases hd : decode w with
  | ok i => exact .inl ⟨i, rfl, wordEffect_legal hd r⟩
  | error e =>
    have hillegal : ¬ legalWord w = true := by
      rw [← exists_decode_eq_ok_iff_legalWord]
      simp [hd]
    exact .inr ⟨by simpa using hillegal, wordEffect_illegal hd r⟩

theorem wordEffect_of_illegal {w : Word} (h : legalWord w = false) (r : Registers) :
    wordEffect w r = (r, .raise .illegalCommand w) := by
  rcases wordEffect_cases w r with ⟨i, hd, -⟩ | ⟨-, heffect⟩
  · simp [(exists_decode_eq_ok_iff_legalWord w).1 ⟨i, hd⟩] at h
  · exact heffect

theorem wordEffect_snd_wf (w : Word) (r : Registers) : (wordEffect w r).2.wf := by
  rcases wordEffect_cases w r with ⟨i, -, h⟩ | ⟨-, h⟩
  · exact h ▸ effectOf_snd_wf i r
  · exact h ▸ Response.raise_wf _ _

/-- An illegal word among others adds its answer, and nothing else depends on it. -/
theorem wordEffects_illegal_between {w : Word} (h : legalWord w = false) (ws vs : List Word) (r : Registers) :
    wordEffects (ws ++ [w] ++ vs) r =
      ((wordEffects (ws ++ vs) r).1,
        (wordEffects ws r).2 ++ [.raise .illegalCommand w] ++ (wordEffects vs (wordEffects ws r).1).2) := by
  simp [wordEffects_append, wordEffect_of_illegal h]

/-- Settles O22: a step commits the effect of its word, a run those of its words one after another. -/
theorem everyWordGetsOneResponse : Obligations.EveryWordGetsOneResponse := by
  refine ⟨?total, ?oneWord, ?manyWords, ?illegalWord⟩
  case total =>
    intro s
    cases hp : s.pending with
    | nil => exact ⟨_, step_of_pending_nil hp⟩
    | cons e later => exact ⟨_, step_of_pending_cons hp⟩
  case oneWord =>
    intro w s later
    have hwf := wordEffect_snd_wf w s.regs
    exact ⟨_, _, step_event (.command w) later s, rfl, rfl, rfl, hwf⟩
  case manyWords =>
    intro s ws
    obtain ⟨t, hrun, -⟩ := runsWords_effects ws s
    exact ⟨t, _, hrun, wordEffects_length ws s.regs⟩
  case illegalWord =>
    intro s ws vs w hw
    obtain ⟨t, hrun, hregs⟩ := runsWords_effects (ws ++ [w] ++ vs) s
    obtain ⟨t', hrun', hregs'⟩ := runsWords_effects (ws ++ vs) s
    rw [wordEffects_illegal_between hw] at hrun hregs
    rw [wordEffects_append] at hrun'
    exact ⟨t, t', _, _, wordEffects_length _ _, wordEffects_length _ _, hrun, hrun', hregs.trans hregs'.symm⟩

/-! ## Runs with resets -/

/-- What events add to the responses heard does not depend on those heard before. -/
theorem afterEvents_heard_eq_append (es : List HostEvent) (s : State) :
    (afterEvents es s).heard = s.heard ++ (afterEvents es { s with heard := [] }).heard := by
  have hheard := afterEvents_heard es { s with heard := [] } s.heard s.pending
  simp only [List.append_nil] at hheard
  exact congrArg State.heard hheard

/-- After a reset only the responses heard before it are left of what was before it. -/
theorem afterEvents_reset (fs : List HostEvent) (s : State) :
    afterEvents (.reset :: fs) s =
      { afterEvents fs State.reset with heard := s.heard ++ (afterEvents fs State.reset).heard, pending := s.pending } := by
  rw [← afterEvents_heard, afterEvents_cons]
  simp only [State.reset, List.append_nil]
  rfl

/-- Settles O26: what follows a reset is what follows in the state after reset, but for the responses already heard. -/
theorem resetLosesTheUnreadCommand : Obligations.ResetLosesTheUnreadCommand := by
  refine ⟨fun _ _ => rfl, fun s w => run_events [.command w, .reset] s, ?listed⟩
  intro s es fs
  have hheard : (afterEvents es s.hearResponse).heard =
      s.observed ++ (afterEvents es { s.hearResponse with heard := [] }).heard :=
    afterEvents_heard_eq_append es s.hearResponse
  refine ⟨_, _, _, (afterEvents es { s.hearResponse with heard := [] }).heard, (afterEvents fs State.reset).observed,
    (runsEvents_iff _ _ _ _).2 ⟨rfl, ?whole⟩, (runsEvents_iff _ _ _ _).2 ⟨rfl, ?before⟩,
    (runsEvents_iff _ _ _ _).2 ⟨rfl, rfl⟩, ?regs⟩
  case whole =>
    rw [List.append_assoc, afterEvents_append, List.singleton_append, afterEvents_reset]
    simp [State.observed, hheard]
  case before => simp [State.observed, hheard]
  case regs =>
    rw [List.append_assoc, afterEvents_append, List.singleton_append, afterEvents_reset]
    rfl

/-! ## The invariant -/

theorem Registers.reset_wf : Registers.reset.wf := by
  decide

/-- Settles O27: the reset values meet the invariant, and no response has been given. -/
theorem resetIsWellFormed : Obligations.ResetIsWellFormed :=
  ⟨Registers.reset_wf, by simp [State.observed, State.reset]⟩

/-- VFY_FEED fills the delay line from the front and feeds the CRC only when it is full (R25, R26). -/
theorem vfyFeed_keeps_delayLineOk (b : Byte) {r : Registers} (h : r.delayLineOk) : (vfyFeed b r).1.delayLineOk := by
  rcases vfyFeed_cases (b := b) (r := r) Prod.mk.eta.symm with ⟨hcnt, ht, -⟩ | ⟨hcnt, ht, -⟩ | ⟨hcnt, ht, -⟩
  all_goals
    rw [ht]
    simp_all [Registers.delayLineOk]

/-- FRX_BYTE enters ERROR only with a reason, and leaves a latched one as it is (R29). -/
theorem frxByte_keeps_latchOk (b : Byte) {r : Registers} (h : r.latchOk) : (frxByte b r).1.latchOk := by
  rcases frxByte_cases (b := b) (r := r) Prod.mk.eta.symm with ⟨x, o, ht, hcase⟩ | ⟨w, ht, hcase⟩ | ⟨-, ht, -⟩
  · have hr : r.rxs ≠ .error := by
      rcases hcase with h | h | h | h | h | h <;> simp [h]
    have hx : x ≠ .error := by
      rcases hcase with h | h | h | h | h | h <;> simp [h]
    rw [congrArg Prod.fst ht]
    exact iff_of_true (h.2 hr) hx
  · have hw : w ≠ .none := by
      rcases hcase with h | h | h | h <;> simp [h]
    rw [congrArg Prod.fst ht]
    exact iff_of_false hw (fun hne => hne rfl)
  · rwa [ht]

theorem Registers.delayLineOk_of_agreeOn {r t : Registers} (h : r.agreeOn .checker t) (ht : t.delayLineOk) :
    r.delayLineOk := by
  obtain ⟨hcrc, h0, h1, hcnt⟩ := h
  rwa [Registers.delayLineOk, hcrc, h0, h1, hcnt]

theorem Registers.latchOk_of_agreeOn {r t : Registers} (h : r.agreeOn .receiver t) (ht : t.latchOk) : r.latchOk := by
  rwa [Registers.latchOk, h.1, h.2]

/-- Every command keeps the invariant of the registers: the checker's and the receiver's commands write one half of it, and
re-arming gives that half its reset values. -/
theorem effectOf_keeps_wf (i : Instr) {r : Registers} (h : r.wf) : (effectOf i r).1.wf := by
  obtain ⟨hdelay, hlatch⟩ := h
  cases i with
  | enc | dec | crcInit | crcFeed | crcTag | ftxBegin | ftxByte | ftxEnd | frxStat => exact ⟨hdelay, hlatch⟩
  | vfyInit | vfyEnd => exact ⟨Registers.reset_wf.1, hlatch⟩
  | vfyFeed b =>
    have hframe := effectOf_agreeOn_other (.vfyFeed b) (u := .receiver) BlockUnit.noConfusion r
    exact ⟨vfyFeed_keeps_delayLineOk b hdelay, Registers.latchOk_of_agreeOn hframe hlatch⟩
  | frxInit | frxEnd => exact ⟨hdelay, Registers.reset_wf.2⟩
  | frxByte b =>
    have hframe := effectOf_agreeOn_other (.frxByte b) (u := .checker) BlockUnit.noConfusion r
    exact ⟨Registers.delayLineOk_of_agreeOn hframe hdelay, frxByte_keeps_latchOk b hlatch⟩

theorem wordEffect_keeps_wf (w : Word) {r : Registers} (h : r.wf) : (wordEffect w r).1.wf := by
  rcases wordEffect_cases w r with ⟨i, -, heffect⟩ | ⟨-, heffect⟩
  · rw [heffect]
    exact effectOf_keeps_wf i h
  · rwa [heffect]

/-- Every event keeps the invariant: a word adds one well-formed response, a read moves the one that waits, and a reset drops
it. -/
theorem afterEvent_keeps_wf (e : HostEvent) {s : State} (h : s.wf) : (afterEvent s e).wf := by
  obtain ⟨hregs, hresponses⟩ := h
  cases e with
  | command w =>
    refine ⟨wordEffect_keeps_wf w hregs, fun p hp => ?_⟩
    rcases List.mem_append.1 hp with hheard | hnew
    · exact hresponses p hheard
    · exact List.mem_singleton.1 hnew ▸ wordEffect_snd_wf w s.regs
  | readResponse => exact ⟨hregs, by simpa [afterEvent] using hresponses⟩
  | reset =>
    refine ⟨Registers.reset_wf, fun p hp => hresponses p (List.mem_append_left _ ?_)⟩
    simpa [State.observed, afterEvent] using hp

/-- Settles O28: a step changes nothing or is what one event does. -/
theorem stepKeepsTheInvariant : Obligations.StepKeepsTheInvariant := by
  intro s t hs hstep
  rcases step_eq_next_cases hstep with ⟨-, rfl⟩ | ⟨e, later, -, rfl⟩
  · exact hs
  · exact afterEvent_keeps_wf e hs

/-! ## Errors -/

/-- Settles O30: the codes, evaluated. -/
theorem codesAreThoseOfTheTables : Obligations.CodesAreThoseOfTheTables := by
  unfold Obligations.CodesAreThoseOfTheTables
  decide

/-- Where a row of R162's table has its cause, the command does what the row says. -/
theorem effectOf_of_errorRow {i : Instr} {r t : Registers} {p : Response} (h : errorRow i r p t) :
    effectOf i r = (t, p) := by
  cases i with
  | enc cp =>
    obtain ⟨hcp, rfl, rfl⟩ := h
    have hnone := Config.charRom.property.enc_eq_none_of_not_permitted hcp
    rw [effectOf, encResponse_of_enc_eq_none hnone]
    rfl
  | vfyEnd =>
    obtain ⟨rfl, ⟨hshort, rfl⟩ | ⟨hfull, hne, rfl⟩⟩ := h
    · rw [effectOf, vfyEndResponse_eq, if_pos hshort]
      rfl
    · have htags : receivedTag r ≠ expectedTag r := hne
      rw [effectOf, vfyEndResponse_eq, if_neg (by omega), if_pos htags]
      rfl
  | frxByte b =>
    rw [effectOf_frxByte]
    rcases h with ⟨hx, hb, rfl, rfl⟩ | ⟨hx, hb, rfl, rfl⟩ | ⟨hx, hb, hb', rfl, rfl⟩ | ⟨hx, rfl, rfl⟩ |
      ⟨hx, rfl, rfl⟩
    · rw [frxByte_of_start hx, if_neg hb]
      rfl
    · rw [frxByte_of_hdr hx, if_neg hb]
      rfl
    · rw [frxByte_of_esc hx, if_neg hb, if_neg hb']
      rfl
    · rw [frxByte_of_done hx]
      rfl
    · rw [frxByte_of_error hx]
      rfl
  | frxEnd =>
    obtain ⟨rfl, ⟨hx, rfl⟩ | ⟨herror, hdone, rfl⟩⟩ := h
    · rw [effectOf, frxEndResponse_eq, if_neg (by simp [hx]), if_pos hx]
      rfl
    · rw [effectOf, frxEndResponse_eq, if_neg hdone, if_neg herror]
      rfl
  | dec | crcInit | crcFeed | crcTag | vfyInit | vfyFeed | ftxBegin | ftxByte | ftxEnd | frxInit | frxStat => exact h.elim

/-- A command answers OK, or it is in a row of R162's table. -/
theorem effectOf_ok_or_errorRow (i : Instr) (r : Registers) :
    (effectOf i r).2.status = .ok ∨ errorRow i r (effectOf i r).2 (effectOf i r).1 := by
  cases i with
  | enc cp =>
    by_cases hcp : cp ∈ Config.charRom.val.permitted
    · obtain ⟨b, hb⟩ := Config.charRom.property.exists_enc_of_permitted hcp
      exact .inl (by rw [effectOf, encResponse_of_enc_eq_some hb])
    · have hnone := Config.charRom.property.enc_eq_none_of_not_permitted hcp
      exact .inr ⟨hcp, encResponse_of_enc_eq_none hnone, rfl⟩
  | vfyFeed b =>
    rcases vfyFeed_cases (b := b) (r := r) Prod.mk.eta.symm with ⟨-, -, h⟩ | ⟨-, -, h⟩ | ⟨-, -, h⟩
    all_goals exact .inl (by rw [effectOf_vfyFeed, h])
  | vfyEnd =>
    rcases vfyEndResponse_cases r with ⟨hshort, h⟩ | ⟨hfull, hne, h⟩ | ⟨-, -, h⟩
    · exact .inr ⟨rfl, .inl ⟨hshort, h⟩⟩
    · exact .inr ⟨rfl, .inr ⟨hfull, hne, h⟩⟩
    · exact .inl (by rw [effectOf, h, Response.okWith_status])
  | frxByte b =>
    rcases frxByte_cases (b := b) (r := r) Prod.mk.eta.symm with ⟨x, o, h, -⟩ | ⟨w, h, hcase⟩ | ⟨hx, ht, h⟩
    · have hp : (frxByte b r).2 = .okWith 0 o := congrArg Prod.snd h
      exact .inl (by rw [effectOf_frxByte, hp, Response.okWith_status])
    · refine .inr ?_
      have ht : (frxByte b r).1 = { r with rxs := .error, rxwhy := w } := congrArg Prod.fst h
      have hp : (frxByte b r).2 = .raiseLatched w := congrArg Prod.snd h
      rw [effectOf_frxByte, ht, hp]
      rcases hcase with ⟨hx, hb, rfl⟩ | ⟨hx, hb, rfl⟩ | ⟨hx, hb, hb', rfl⟩ | ⟨hx, rfl⟩
      · exact .inl ⟨hx, hb, rfl, rfl⟩
      · exact .inr (.inl ⟨hx, hb, rfl, rfl⟩)
      · exact .inr (.inr (.inl ⟨hx, hb, hb', rfl, rfl⟩))
      · exact .inr (.inr (.inr (.inl ⟨hx, rfl, rfl⟩)))
    · exact .inr (.inr (.inr (.inr (.inr ⟨hx, h, ht⟩))))
  | frxEnd =>
    rcases frxEndResponse_cases r with ⟨-, h⟩ | ⟨hx, h⟩ | ⟨hdone, herror, h⟩
    · exact .inl (by rw [effectOf, h, Response.okWith_status])
    · exact .inr ⟨rfl, .inl ⟨hx, h⟩⟩
    · exact .inr ⟨rfl, .inr ⟨herror, hdone, h⟩⟩
  | dec | crcInit | crcFeed | crcTag | vfyInit | ftxBegin | ftxByte | ftxEnd | frxInit | frxStat => exact .inl rfl

/-- Settles O29: a command is one commit of its effect, which is OK or a row, and is the row wherever the cause holds. -/
theorem onlyTheListedErrorsAreReported : Obligations.OnlyTheListedErrorsAreReported := by
  refine ⟨fun i s => ?command, fun w e => answersIllegal_of_decode_eq_error⟩
  refine ⟨_, _, exec_eq_commit i s, rfl, effectOf_ok_or_errorRow i s.regs, fun q r hrow => ?_⟩
  have heffect := effectOf_of_errorRow hrow
  exact ⟨(congrArg Prod.snd heffect).symm, (congrArg Prod.fst heffect).symm⟩

end Sys2Proof.Machine

/-! PROOFS: the laws of CRC-16/X.25 (41_crc.md R102 to R107, R116). Everything rests on one fact, that a shift of the register is
linear over GF(2) and has kernel 0. -/

namespace Sys2Proof.Machine

/-! ## The shift -/

theorem crcShift_of_low_zero {c : Crc16} (h : c.getLsbD 0 = false) : crcShift c = c >>> 1 := by
  rw [crcShift, h, if_neg Bool.false_ne_true]

theorem crcShift_of_low_one {c : Crc16} (h : c.getLsbD 0 = true) : crcShift c = (c >>> 1) ^^^ 0x8408 := by
  rw [crcShift, h, if_pos rfl]

/-- A shift bit by bit: the polynomial is added exactly when the bit shifted out is 1. -/
theorem crcShift_getElem (c : Crc16) {j : Nat} (hj : j < 16) :
    (crcShift c)[j] = (c.getLsbD (j + 1) ^^ (c.getLsbD 0 && (0x8408#16)[j])) := by
  cases h : c.getLsbD 0 with
  | false => simp [crcShift_of_low_zero h, Nat.add_comm]
  | true => simp [crcShift_of_low_one h, Nat.add_comm]

theorem crcShift_xor (c d : Crc16) : crcShift (c ^^^ d) = crcShift c ^^^ crcShift d := by
  ext j hj
  simp only [crcShift_getElem _ hj, BitVec.getElem_xor, BitVec.getLsbD_xor, Bool.and_xor_distrib_right, Bool.xor_assoc,
    Bool.xor_left_comm]

/-- The bit shifted out comes back as the top bit, so no nonzero register is shifted to 0. -/
theorem eq_zero_of_crcShift_eq_zero {c : Crc16} (h : crcShift c = 0) : c = 0 := by
  have hbits : ∀ j (hj : j < 16), (c.getLsbD (j + 1) ^^ (c.getLsbD 0 && (0x8408#16)[j])) = false := by
    intro j hj
    rw [← crcShift_getElem c hj, h]
    exact BitVec.getElem_zero hj
  have hlow : c.getLsbD 0 = false := by
    have htop := hbits 15 (by decide)
    rwa [BitVec.getLsbD_of_ge c 16 le_rfl, Bool.false_xor, show (0x8408#16)[15] = true from rfl, Bool.and_true] at htop
  refine BitVec.eq_of_getLsbD_eq fun j hj => ?_
  rw [BitVec.ofNat_eq_ofNat, BitVec.getLsbD_zero]
  cases j with
  | zero => exact hlow
  | succ j =>
    have hnext := hbits j (by omega)
    rwa [hlow, Bool.false_and, Bool.xor_false] at hnext

theorem crcShifts_xor (n : Nat) (c d : Crc16) : crcShifts n (c ^^^ d) = crcShifts n c ^^^ crcShifts n d := by
  induction n generalizing c d with
  | zero => rfl
  | succ n ih => rw [crcShifts, crcShifts, crcShifts, crcShift_xor, ih]

theorem eq_zero_of_crcShifts_eq_zero (n : Nat) {c : Crc16} (h : crcShifts n c = 0) : c = 0 := by
  induction n generalizing c with
  | zero => exact h
  | succ n ih => exact eq_zero_of_crcShift_eq_zero (ih h)

/-- As long as only zeros are shifted out, shifting is a right shift. -/
theorem crcShifts_of_low_zero (n : Nat) {c : Crc16} (h : ∀ k < n, c.getLsbD k = false) : crcShifts n c = c >>> n := by
  induction n generalizing c with
  | zero => exact (BitVec.ushiftRight_zero c).symm
  | succ n ih =>
    have hshift : crcShift c = c >>> 1 := crcShift_of_low_zero (h 0 n.succ_pos)
    rw [crcShifts, hshift, ih (fun k hk => ?_), ← BitVec.shiftRight_add, Nat.add_comm]
    simpa [Nat.add_comm] using h (k + 1) (by omega)

/-! ## Bytes and sequences -/

theorem crcStep_xor (c d : Crc16) (a b : Byte) : crcStep (c ^^^ d) (a ^^^ b) = crcStep c a ^^^ crcStep d b := by
  rw [crcStep, crcStep, crcStep, ← crcShifts_xor]
  rw [BitVec.setWidth_xor]
  congr 1
  ac_rfl

theorem crcReg_append (c : Crc16) (a b : List Byte) : crcReg c (a ++ b) = crcReg (crcReg c a) b := List.foldl_append

/-- Registers and sequences of equal length add up bit by bit. -/
theorem crcReg_xor (c d : Crc16) {a b : List Byte} (h : a.length = b.length) :
    crcReg (c ^^^ d) (List.zipWith (· ^^^ ·) a b) = crcReg c a ^^^ crcReg d b := by
  induction a generalizing b c d with
  | nil =>
    obtain rfl := List.length_eq_zero_iff.1 h.symm
    rfl
  | cons x a ih =>
    obtain _ | ⟨y, b⟩ := b
    · cases h
    · rw [List.zipWith_cons_cons, crcReg_cons, crcReg_cons, crcReg_cons, crcStep_xor, ih _ _ (Nat.succ.inj h)]

/-- Settles O38: the register is a fold, and the sum of two of them starts from the sum of their starts, which is 0. -/
theorem crcComposesAndIsLinear : Obligations.CrcComposesAndIsLinear := by
  refine ⟨crcReg_append, fun c a b h => ?_⟩
  rw [← crcReg_xor c c h, BitVec.xor_self]
  rfl

/-! ## The parametric form -/

theorem getLsbD_reverse_of_lt {w j : Nat} (hj : j < w) (x : BitVec w) : x.reverse.getLsbD j = x.getLsbD (w - 1 - j) := by
  rw [BitVec.getLsbD_reverse, BitVec.getMsbD_eq_getLsbD, decide_eq_true hj, Bool.true_and]

theorem reverse_xor (a b : Crc16) : (a ^^^ b).reverse = a.reverse ^^^ b.reverse := by
  refine BitVec.eq_of_getLsbD_eq fun j hj => ?_
  simp only [BitVec.getLsbD_xor, getLsbD_reverse_of_lt hj]

theorem reverse_shiftLeft_one (r : Crc16) : (r <<< 1).reverse = r.reverse >>> 1 := by
  refine BitVec.eq_of_getLsbD_eq fun j hj => ?_
  rw [getLsbD_reverse_of_lt hj, BitVec.getLsbD_shiftLeft, BitVec.getLsbD_ushiftRight]
  by_cases h : 1 + j < 16
  · rw [getLsbD_reverse_of_lt h]
    simp [show 16 - 1 - j - 1 = 16 - 1 - (1 + j) by omega, show ¬ 15 - j < 1 by omega]
    omega
  · rw [BitVec.getLsbD_of_ge r.reverse _ (by omega)]
    simp [show 15 - j < 1 by omega]

/-- The two polynomials are each other's reversal, so a left shift in one form is a right shift in the other. -/
theorem reverse_crcParamShift (r : Crc16) : (crcParamShift r).reverse = crcShift r.reverse := by
  have hbit : r.reverse.getLsbD 0 = r.getLsbD 15 := by
    rw [BitVec.getLsbD_reverse]
    rfl
  have hpoly : (0x1021 : Crc16).reverse = 0x8408 := by decide
  cases h : r.getLsbD 15 with
  | false => rw [crcParamShift, h, if_neg Bool.false_ne_true, reverse_shiftLeft_one, crcShift_of_low_zero (hbit.trans h)]
  | true => rw [crcParamShift, h, if_pos rfl, reverse_xor, reverse_shiftLeft_one, hpoly, crcShift_of_low_one (hbit.trans h)]

theorem reverse_crcParamShifts (n : Nat) (r : Crc16) : (crcParamShifts n r).reverse = crcShifts n r.reverse := by
  induction n generalizing r with
  | zero => rfl
  | succ n ih => rw [crcParamShifts, ih, reverse_crcParamShift, crcShifts]

/-- A byte reversed at the top of the register is the byte itself at the bottom of the reversed register. -/
theorem reverse_byte_at_top (b : Byte) : (b.reverse.setWidth 16 <<< 8 : Crc16).reverse = b.setWidth 16 := by
  refine BitVec.eq_of_getLsbD_eq fun j hj => ?_
  rw [getLsbD_reverse_of_lt hj, BitVec.getLsbD_shiftLeft, BitVec.getLsbD_setWidth, BitVec.getLsbD_setWidth]
  by_cases h : j < 8
  · rw [getLsbD_reverse_of_lt (by omega)]
    simp [show 8 - 1 - (16 - 1 - j - 8) = j by omega, show ¬ 15 - j < 8 by omega, hj, show 15 - j < 16 by omega,
      show 15 - j - 8 < 16 by omega]
  · rw [BitVec.getLsbD_of_ge b j (by omega)]
    simp [show 15 - j < 8 by omega]

theorem reverse_crcParamStep (r : Crc16) (b : Byte) : (crcParamStep r b).reverse = crcStep r.reverse b := by
  rw [crcParamStep, reverse_crcParamShifts, reverse_xor, reverse_byte_at_top, crcStep]

theorem reverse_foldl_crcParamStep (bs : List Byte) (r : Crc16) :
    (bs.foldl crcParamStep r).reverse = crcReg r.reverse bs := by
  induction bs generalizing r with
  | nil => rfl
  | cons b bs ih => rw [List.foldl_cons, ih, reverse_crcParamStep, crcReg_cons]

/-- Settles O36: the registers of the two forms are each other's reversal after every byte. -/
theorem parametricAndReflectedFormsAgree : Obligations.ParametricAndReflectedFormsAgree := by
  have hinit : (0xFFFF : Crc16).reverse = 0xFFFF := by decide
  refine ⟨fun bs => ?_, hinit, by decide⟩
  rw [crcParam, reverse_foldl_crcParamStep, crcInitial, hinit]

/-! ## Known values and the residue -/

/-- Settles O37: the definitions, and the three values by evaluation. -/
theorem checksumOfKnownSequences : Obligations.ChecksumOfKnownSequences :=
  ⟨fun _ => ⟨rfl, rfl⟩, rfl, by decide +kernel, by decide +kernel⟩

/-- Fed its own two bytes, low byte first, the register becomes 0. -/
theorem crcReg_tagBytes_self (v : Crc16) : crcReg v (tagBytes v) = 0 := by
  have hlow : crcStep v (lowByte v) = (highByte v).setWidth 16 := by
    rw [crcStep, crcShifts_of_low_zero]
    · refine BitVec.eq_of_getLsbD_eq fun j hj => ?_
      by_cases h : j < 8
      · simp [highByte, lowByte, h, hj]
      · simp [highByte, lowByte, h, BitVec.getLsbD_of_ge v (8 + j) (by omega)]
    · intro k hk
      simp [lowByte, hk, show k < 16 by omega]
  have hhigh : crcStep ((highByte v).setWidth 16) (highByte v) = 0 := by
    rw [crcStep, BitVec.xor_self]
    rfl
  rw [tagBytes, crcReg_cons, crcReg_cons, crcReg_nil, hlow, hhigh]

/-- The bytes of a complemented register, fed to it, always give the same value: what they add to it is the register itself,
and this part of the sum becomes 0. -/
theorem crcReg_tagBytes_complement (c : Crc16) : crcReg c (tagBytes (c ^^^ 0xFFFF)) = 0xF0B8 := by
  have hc : c = (c ^^^ 0xFFFF) ^^^ 0xFFFF := by rw [BitVec.xor_assoc, BitVec.xor_self, BitVec.xor_zero]
  have hbytes : tagBytes (c ^^^ 0xFFFF) = List.zipWith (· ^^^ ·) (tagBytes (c ^^^ 0xFFFF)) [0, 0] := by
    simp [tagBytes]
  calc crcReg c (tagBytes (c ^^^ 0xFFFF))
      = crcReg ((c ^^^ 0xFFFF) ^^^ 0xFFFF) (List.zipWith (· ^^^ ·) (tagBytes (c ^^^ 0xFFFF)) [0, 0]) := by
        rw [← hc, ← hbytes]
    _ = crcReg (c ^^^ 0xFFFF) (tagBytes (c ^^^ 0xFFFF)) ^^^ crcReg 0xFFFF [0, 0] := crcReg_xor _ _ rfl
    _ = crcReg 0xFFFF [0, 0] := by rw [crcReg_tagBytes_self]; exact BitVec.zero_xor
    _ = 0xF0B8 := by decide +kernel

/-- Settles O39: the tag is the complement of the register. -/
theorem residueIsConstant : Obligations.ResidueIsConstant := by
  intro x
  rw [crcReg_append]
  exact crcReg_tagBytes_complement _

/-! ## Verification -/

@[simp] theorem checksum_length (x : List Byte) : (checksum x).length = 2 := rfl

/-- What `verify` answers to a payload and two more bytes (R104). -/
theorem verify_append {t : List Byte} (ht : t.length = 2) (p : List Byte) :
    verify (p ++ t) = if t ≠ checksum p then .error (.checksum t (checksum p)) else .ok p := by
  simp [verify, ht]

/-- Settles O40: the tag that is compared is the one that was appended. -/
theorem verifyUndoesChecksum : Obligations.VerifyUndoesChecksum := by
  intro x
  rw [verify_append (checksum_length x), if_neg (not_not_intro rfl)]

/-! ## Single-bit errors -/

theorem crcShifts_injective (n : Nat) : Function.Injective (crcShifts n) := by
  intro c d h
  have hsum : crcShifts n (c ^^^ d) = 0 := by rw [crcShifts_xor, h, BitVec.xor_self]; rfl
  exact BitVec.xor_eq_zero_iff.1 (eq_zero_of_crcShifts_eq_zero n hsum)

theorem crcStep_register_injective (b : Byte) : Function.Injective (crcStep · b) :=
  fun _ _ h => (BitVec.xor_left_inj _).1 (crcShifts_injective 8 h)

theorem crcStep_byte_injective (c : Crc16) : Function.Injective (crcStep c) := by
  intro a b h
  have hwide : a.setWidth 16 = b.setWidth 16 := (BitVec.xor_right_inj _).1 (crcShifts_injective 8 h)
  bv_omega

theorem crcReg_register_injective (bs : List Byte) : Function.Injective (crcReg · bs) := by
  induction bs with
  | nil => exact fun _ _ h => h
  | cons b bs ih => exact fun _ _ h => crcStep_register_injective b (ih h)

/-- A change of one byte is never undone by the bytes after it. -/
theorem crcReg_ne_of_one_byte_ne (c : Crc16) (a d : List Byte) {b b' : Byte} (h : b ≠ b') :
    crcReg c (a ++ b :: d) ≠ crcReg c (a ++ b' :: d) := by
  intro heq
  rw [crcReg_append, crcReg_append] at heq
  exact h (crcStep_byte_injective _ (crcReg_register_injective d heq))

/-- A sequence whose register is not the residue fails with a checksum error. -/
theorem verify_of_not_residue {y : List Byte} (hlen : 2 ≤ y.length) (h : crcReg 0xFFFF y ≠ 0xF0B8) :
    ∃ received expected, verify y = .error (.checksum received expected) := by
  obtain ⟨p, t, ht, rfl⟩ : ∃ p t : List Byte, t.length = 2 ∧ y = p ++ t :=
    ⟨y.take (y.length - 2), y.drop (y.length - 2), by rw [List.length_drop]; omega, (List.take_append_drop _ y).symm⟩
  have htag : t ≠ checksum p := by
    rintro rfl
    exact h (residueIsConstant p)
  exact ⟨t, checksum p, (verify_append ht p).trans (if_pos htag)⟩

theorem shifted_one_ne_zero {bit : Nat} (h : bit < 8) : 1#8 <<< bit ≠ 0 := by
  interval_cases bit <;> decide

/-- Settles O41: inverting a bit changes one byte, so the register is no longer the residue. -/
theorem singleBitErrorsAreDetected : Obligations.SingleBitErrorsAreDetected := by
  intro x k bit hk hbit
  obtain ⟨a, b, d, hy, -, hflip⟩ := List.exists_of_modify (fun b : Byte => b ^^^ (1#8 <<< bit)) hk
  have hlen : 2 ≤ (flipBit (x ++ checksum x) k bit).length := by simp [flipBit]
  refine verify_of_not_residue hlen ?_
  have hb : b ^^^ (1#8 <<< bit) ≠ b := fun h => shifted_one_ne_zero hbit (xor_left_eq_self_iff.1 h)
  rw [flipBit, hflip, ← residueIsConstant x, hy]
  exact crcReg_ne_of_one_byte_ne _ a d hb

end Sys2Proof.Machine

/-! PROOFS: the commands of the generator and of the checker compute `checksum` and `verify` (41_crc.md R114, R115,
70_reset_and_hazards.md R187, 10_state.md R25, R26). A fed sequence is the empty one, one byte, or a payload with two more
bytes, which the delay line holds back. -/

namespace Sys2Proof.Machine

/-- One response for each command. -/
theorem effectsOf_length (is : List Instr) (r : Registers) : (effectsOf is r).2.length = is.length := by
  induction is generalizing r with
  | nil => rfl
  | cons i is ih => simp [ih]

/-! ## The generator -/

/-- The answer of CRC_TAG on a register that has taken in a sequence (R114). -/
def tagResponse (bs : List Byte) : Response := .okWith ((crc16X25 bs).setWidth 32) (checksum bs)

/-- CRC_OF of a sequence: every command answers OK, and the tag is that of the sequence. -/
theorem effectsOf_crcOf (bs : List Byte) (r : Registers) :
    effectsOf (Pseudo.crcOf bs).expand r =
      ({ r with crc := crcReg 0xFFFF bs }, List.replicate (bs.length + 1) (.okWith 0 []) ++ [tagResponse bs]) := by
  rw [Pseudo.expand, effectsOf_append, List.singleton_append, effectsOf_crcInit_crcFeeds]
  rfl

/-- Feeds and CRC_TAG go on from the bytes that the register has taken in before. -/
theorem effectsOf_crcFeeds_crcTag (a b : List Byte) (r : Registers) :
    effectsOf (b.map Instr.crcFeed ++ [Instr.crcTag]) { r with crc := crcReg 0xFFFF a } =
      ({ r with crc := crcReg 0xFFFF (a ++ b) }, List.replicate b.length (.okWith 0 []) ++ [tagResponse (a ++ b)]) := by
  rw [effectsOf_append, effectsOf_crcFeeds, ← crcReg_append]
  rfl

/-- Settles O43: the responses are those of `effectsOf_crcOf`. -/
theorem generatorComputesTheChecksum : Obligations.GeneratorComputesTheChecksum := by
  intro s bs
  obtain ⟨t, hrun, -⟩ := exists_run (Pseudo.crcOf bs).expand s
  rw [effectsOf_crcOf] at hrun
  refine ⟨t, _, _, hrun, ?_, rfl, rfl⟩
  simp [tagResponse, List.mem_replicate]

/-- Settles O44: CRC_TAG leaves the register, so the feeds after it go on from the first sequence. -/
theorem tagDoesNotRestartTheChecksum : Obligations.TagDoesNotRestartTheChecksum := by
  intro s a b
  obtain ⟨t, hrun, -⟩ := exists_run ((Pseudo.crcOf a).expand ++ (b.map Instr.crcFeed ++ [Instr.crcTag])) s
  rw [effectsOf_append, effectsOf_crcOf, effectsOf_crcFeeds_crcTag] at hrun
  exact ⟨t, _, _, _, _, List.length_replicate, List.length_replicate, hrun, rfl, rfl⟩

/-! ## The checker -/

/-- Either too short to hold a tag, or a payload and two bytes. -/
theorem short_or_payload_and_tag (x : List Byte) :
    x = [] ∨ (∃ b, x = [b]) ∨ ∃ p d0 d1, x = p ++ [d0, d1] := by
  rcases x.eq_nil_or_concat' with rfl | ⟨y, d1, rfl⟩
  · exact .inl rfl
  rcases y.eq_nil_or_concat' with rfl | ⟨p, d0, rfl⟩
  · exact .inr (.inl ⟨d1, rfl⟩)
  · exact .inr (.inr ⟨p, d0, d1, by simp⟩)

/-- Settles O45: both commands empty the delay line, and `effectsOf_vfyFeeds` says what a payload and two bytes leave. -/
theorem checkerHoldsBackTheLastTwoBytes : Obligations.CheckerHoldsBackTheLastTwoBytes := by
  intro s arm x harm
  have harmed : (effectOf arm s.regs).1 = s.regs.armChecker := by
    rcases harm with rfl | rfl <;> rfl
  obtain ⟨t, hrun, hregs⟩ := exists_run (arm :: x.map .vfyFeed) s
  refine ⟨t, _, hrun, ?_⟩
  rw [effectsOf_cons, harmed] at hregs
  rcases short_or_payload_and_tag x with rfl | ⟨b, rfl⟩ | ⟨p, d0, d1, rfl⟩
  · rw [hregs]
    simp
  · rw [hregs]
    simp [vfyFeed_of_vcnt_zero b s.regs.armChecker_vcnt]
  · have hlong : ∀ b, p ++ [d0, d1] ≠ [b] := fun b h => by simpa using congrArg List.length h
    rw [hregs, effectsOf_vfyFeeds s.regs.armChecker_vcnt]
    simp [hlong]

theorem tagOfBytes_eq_append (a b : Byte) : tagOfBytes a b = b ++ a := by
  refine BitVec.eq_of_getLsbD_eq fun j hj => ?_
  rw [BitVec.getLsbD_append]
  by_cases h : j < 8
  · simp [tagOfBytes, h, hj]
  · simp [tagOfBytes, h, hj, BitVec.getLsbD_of_ge a j (by omega)]

theorem lowByte_append (a b : Byte) : lowByte (b ++ a) = a := by
  refine BitVec.eq_of_getLsbD_eq fun j hj => ?_
  rw [lowByte, BitVec.getLsbD_extractLsb', BitVec.getLsbD_append]
  simp [hj]

theorem highByte_append (a b : Byte) : highByte (b ++ a) = b := by
  refine BitVec.eq_of_getLsbD_eq fun j hj => ?_
  rw [highByte, BitVec.getLsbD_extractLsb', BitVec.getLsbD_append]
  simp [hj]

theorem highByte_append_lowByte (v : Crc16) : highByte v ++ lowByte v = v := by
  refine BitVec.eq_of_getLsbD_eq fun j hj => ?_
  rw [BitVec.getLsbD_append]
  by_cases h : j < 8
  · simp [lowByte, h]
  · simp [highByte, h, show j - 8 < 8 by omega, show 8 + (j - 8) = j by omega]

/-- Two bytes are the tag of a value exactly if the value is read from them. -/
theorem eq_tagBytes_iff (a b : Byte) (v : Crc16) : [a, b] = tagBytes v ↔ tagOfBytes a b = v := by
  rw [tagOfBytes_eq_append]
  constructor
  · intro h
    obtain ⟨ha, hb⟩ : a = lowByte v ∧ b = highByte v := by simpa [tagBytes] using h
    rw [ha, hb, highByte_append_lowByte]
  · rintro rfl
    rw [tagBytes, lowByte_append, highByte_append]

theorem tagPairValue_eq_append (recv expected : Crc16) : tagPairValue recv expected = expected ++ recv := by
  refine BitVec.eq_of_getLsbD_eq fun j hj => ?_
  rw [BitVec.getLsbD_append]
  by_cases h : j < 16
  · simp [tagPairValue, h, hj]
  · simp [tagPairValue, h, hj, BitVec.getLsbD_of_ge recv j (by omega)]

/-- The value of two tags is their four bytes, the received tag's first byte lowest (R45). -/
theorem tagBytesValue_tagBytes (a b : Byte) (v : Crc16) :
    tagBytesValue [a, b] (tagBytes v) = some (tagPairValue (tagOfBytes a b) v) := by
  rw [tagOfBytes_eq_append, tagBytes, tagBytesValue, tagPairValue_eq_append]
  refine congrArg some ?_
  calc highByte v ++ lowByte v ++ b ++ a = (highByte v ++ lowByte v) ++ (b ++ a) := BitVec.append_assoc
    _ = v ++ (b ++ a) := by rw [highByte_append_lowByte]

/-- What R115 says of the responses `ps` to the feeds of `x` and of the answer `p` of VFY_END. -/
def AnswersVerify (x : List Byte) (ps : List Response) (p : Response) : Prop :=
  match verify x with
  | .ok payload => p.status = .ok ∧ outBytes ps = payload
  | .error (.protocol reason) => reason = .short ∧ p = ⟨.protocolError, 0x00000001, []⟩ ∧ outBytes ps = []
  | .error (.checksum received expected) =>
    p.status = .checksumError ∧ tagBytesValue received expected = some p.value ∧ outBytes ps = x.take (x.length - 2)
  | .error (.validation _ _) => False

theorem outBytes_emitted (p : List Byte) : outBytes (p.map fun b => ⟨.ok, 0, [b]⟩) = p := by
  simp [outBytes, List.flatMap_map]

/-- VFY_END compares the two bytes held back with the tag of the payload before them. -/
theorem vfyEndResponse_of_fed {r : Registers} {p : List Byte} {d0 d1 : Byte} (hcrc : r.vcrc = crcReg 0xFFFF p)
    (h0 : r.vhold0 = d0) (h1 : r.vhold1 = d1) (hcnt : r.vcnt = 2) :
    vfyEndResponse r =
      if [d0, d1] ≠ checksum p then ⟨.checksumError, tagPairValue (tagOfBytes d0 d1) (crc16X25 p), []⟩
      else ⟨.ok, tagPairValue (tagOfBytes d0 d1) (crc16X25 p), []⟩ := by
  have hreceived : receivedTag r = tagOfBytes d0 d1 := by rw [receivedTag, h0, h1]
  have hexpected : expectedTag r = crc16X25 p := by rw [expectedTag, hcrc, crc16X25]
  rw [vfyEndResponse_eq, if_neg (by omega), hreceived, hexpected, checksum]
  simp only [ne_eq, eq_tagBytes_iff]

theorem answersVerify_of_fed {r : Registers} {p : List Byte} {d0 d1 : Byte} {ps : List Response}
    (hcrc : r.vcrc = crcReg 0xFFFF p) (h0 : r.vhold0 = d0) (h1 : r.vhold1 = d1) (hcnt : r.vcnt = 2)
    (hout : outBytes ps = p) : AnswersVerify (p ++ [d0, d1]) ps (vfyEndResponse r) := by
  have htake : (p ++ [d0, d1]).take ((p ++ [d0, d1]).length - 2) = p := by simp
  rw [AnswersVerify, verify_append rfl, vfyEndResponse_of_fed hcrc h0 h1 hcnt]
  by_cases htag : [d0, d1] ≠ checksum p
  · rw [if_pos htag, if_pos htag]
    exact ⟨rfl, tagBytesValue_tagBytes d0 d1 _, hout.trans htake.symm⟩
  · rw [if_neg htag, if_neg htag]
    exact ⟨rfl, hout⟩

/-- From an armed checker the feeds of a sequence and VFY_END answer what `verify` does. -/
theorem effectsOf_vfyFeeds_answersVerify (x : List Byte) (r : Registers) :
    AnswersVerify x (effectsOf (x.map .vfyFeed) r.armChecker).2
      (vfyEndResponse (effectsOf (x.map .vfyFeed) r.armChecker).1) := by
  rcases short_or_payload_and_tag x with rfl | ⟨b, rfl⟩ | ⟨p, d0, d1, rfl⟩
  · exact ⟨rfl, rfl, rfl⟩
  · exact ⟨rfl, rfl, rfl⟩
  · rw [effectsOf_vfyFeeds r.armChecker_vcnt]
    exact answersVerify_of_fed rfl rfl rfl rfl (outBytes_emitted p)

/-- Settles O46: VFY_INIT arms the checker, and from there `effectsOf_vfyFeeds_answersVerify`. -/
theorem checkerComputesVerify : Obligations.CheckerComputesVerify := by
  intro s x
  obtain ⟨t, hrun, -⟩ := exists_run ([Instr.vfyInit] ++ x.map Instr.vfyFeed ++ [Instr.vfyEnd]) s
  rw [effectsOf_append, List.singleton_append, effectsOf_cons] at hrun
  exact ⟨t, _, _, _, by rw [effectsOf_length, List.length_map], hrun, effectsOf_vfyFeeds_answersVerify x s.regs⟩

end Sys2Proof.Machine

/-! PROOFS: frames as functions (42_framer.md R131 to R134, R144). `unstuff_stuff_close` and
`eq_stuff_close_of_unstuff_eq_ok` say that taking the stuffing out undoes stuffing and undoes nothing else; the laws of `deframe`
follow from them. -/

namespace Sys2Proof.Machine

theorem stuff_cons (b : Byte) (p : List Byte) : stuff (b :: p) = stuffByte b ++ stuff p := rfl

theorem stuff_append (p q : List Byte) : stuff (p ++ q) = stuff p ++ stuff q := by
  induction p with
  | nil => rfl
  | cons b p ih => rw [List.cons_append, stuff_cons, stuff_cons, ih, List.append_assoc]

theorem stuff_eq_flatten (p : List Byte) : stuff p = (p.map stuffByte).flatten := by
  induction p with
  | nil => rfl
  | cons b p ih => rw [stuff_cons, ih, List.map_cons, List.flatten_cons]

theorem stuffByte_length (b : Byte) : (stuffByte b).length = if b = dle then 2 else 1 := by
  rw [stuffByte, apply_ite List.length]
  rfl

theorem stuff_length (p : List Byte) : (stuff p).length = p.length + p.countP (· == dle) := by
  induction p with
  | nil => rfl
  | cons b p ih =>
    rw [stuff_cons, List.length_append, stuffByte_length, ih, List.length_cons, List.countP_cons]
    simp only [beq_iff_eq]
    split_ifs <;> omega

/-! ## Taking the stuffing out -/

theorem unstuff_dle (r : List Byte) : unstuff false (dle :: r) = unstuff true r := by
  rw [unstuff, if_neg Bool.false_ne_true, if_pos rfl]

theorem unstuff_of_ne_dle {b : Byte} (h : b ≠ dle) (r : List Byte) :
    unstuff false (b :: r) = (unstuff false r).map (b :: ·) := by
  rw [unstuff, if_neg Bool.false_ne_true, if_neg h]

theorem unstuff_escaped_dle (r : List Byte) : unstuff true (dle :: r) = (unstuff false r).map (dle :: ·) := by
  rw [unstuff, if_pos rfl, if_pos rfl]

theorem unstuff_escaped_etx (r : List Byte) :
    unstuff true (etx :: r) = if r = [] then .ok [] else .error (.protocol .trailing) := by
  rw [unstuff, if_pos rfl, if_neg (by decide), if_pos rfl]

theorem unstuff_escaped_of_ne {b : Byte} (h : b ≠ dle) (h' : b ≠ etx) (r : List Byte) :
    unstuff true (b :: r) = .error (.protocol .badEscape) := by
  rw [unstuff, if_pos rfl, if_neg h, if_neg h']

theorem map_cons_eq_ok {b : Byte} {x : Except BufferError (List Byte)} {p : List Byte}
    (h : x.map (b :: ·) = .ok p) : ∃ q, p = b :: q ∧ x = .ok q := by
  cases x with
  | error e => cases h
  | ok q =>
    cases h
    exact ⟨q, rfl, rfl⟩

theorem map_cons_eq_error {b : Byte} {x : Except BufferError (List Byte)} {e : BufferError}
    (h : x.map (b :: ·) = .error e) : x = .error e := by
  cases x with
  | error e' =>
    cases h
    rfl
  | ok q => cases h

theorem unstuff_stuffByte_append (b : Byte) (y : List Byte) :
    unstuff false (stuffByte b ++ y) = (unstuff false y).map (b :: ·) := by
  by_cases hb : b = dle
  · subst hb
    exact (unstuff_dle (dle :: y)).trans (unstuff_escaped_dle y)
  · rw [stuffByte_of_ne_dle hb]
    exact unstuff_of_ne_dle hb y

theorem unstuff_stuff_close (p : List Byte) : unstuff false (stuff p ++ [dle, etx]) = .ok p := by
  induction p with
  | nil => exact (unstuff_dle [etx]).trans (unstuff_escaped_etx [])
  | cons b p ih =>
    rw [stuff_cons, List.append_assoc, unstuff_stuffByte_append, ih]
    rfl

/-- Where the payload is `p`, the bytes, with the unpaired DLE that was read before them, are `p` stuffed and the closing
envelope. -/
theorem eq_stuff_close_of_unstuff_eq_ok {escaped : Bool} {y p : List Byte} (h : unstuff escaped y = .ok p) :
    (if escaped then [dle] else []) ++ y = stuff p ++ [dle, etx] := by
  induction y generalizing escaped p with
  | nil => cases h
  | cons b r ih =>
    cases escaped with
    | false =>
      by_cases hb : b = dle
      · subst hb
        exact ih ((unstuff_dle r).symm.trans h)
      · rw [unstuff_of_ne_dle hb] at h
        obtain ⟨q, rfl, hq⟩ := map_cons_eq_ok h
        rw [stuff_cons, stuffByte_of_ne_dle hb]
        exact congrArg (b :: ·) (ih hq)
    | true =>
      by_cases hb : b = dle
      · subst hb
        rw [unstuff_escaped_dle] at h
        obtain ⟨q, rfl, hq⟩ := map_cons_eq_ok h
        rw [stuff_cons, stuffByte_dle]
        exact congrArg ([dle, dle] ++ ·) (ih hq)
      by_cases hb' : b = etx
      · subst hb'
        rw [unstuff_escaped_etx] at h
        split_ifs at h with hr
        cases h
        rw [hr]
        rfl
      · rw [unstuff_escaped_of_ne hb hb'] at h
        cases h

/-- Taking the stuffing out fails only with a PROTOCOL_ERROR. -/
theorem unstuff_error {escaped : Bool} {y : List Byte} {e : BufferError} (h : unstuff escaped y = .error e) :
    ∃ reason, e = .protocol reason := by
  induction y generalizing escaped with
  | nil =>
    cases h
    exact ⟨_, rfl⟩
  | cons b r ih =>
    cases escaped with
    | false =>
      by_cases hb : b = dle
      · subst hb
        exact ih ((unstuff_dle r).symm.trans h)
      · rw [unstuff_of_ne_dle hb] at h
        exact ih (map_cons_eq_error h)
    | true =>
      by_cases hb : b = dle
      · subst hb
        rw [unstuff_escaped_dle] at h
        exact ih (map_cons_eq_error h)
      by_cases hb' : b = etx
      · subst hb'
        rw [unstuff_escaped_etx] at h
        split_ifs at h
        cases h
        exact ⟨_, rfl⟩
      · rw [unstuff_escaped_of_ne hb hb'] at h
        cases h
        exact ⟨_, rfl⟩

/-! ## deframe -/

theorem deframe_opening (y : List Byte) : deframe (dle :: stx :: y) = unstuff false y := by
  rw [deframe, if_pos rfl]
  exact if_pos rfl

theorem deframe_nil : deframe [] = .error (.protocol .truncated) := rfl

theorem deframe_dle : deframe [dle] = .error (.protocol .truncated) := rfl

theorem deframe_of_ne_dle {b : Byte} (h : b ≠ dle) (y : List Byte) : deframe (b :: y) = .error (.protocol .noDle) := if_neg h

theorem deframe_of_ne_stx {b : Byte} (h : b ≠ stx) (y : List Byte) :
    deframe (dle :: b :: y) = .error (.protocol .noStx) := by
  rw [deframe, if_pos rfl]
  exact if_neg h

/-- A sequence that `deframe` does not refuse at once has its opening envelope. -/
theorem deframe_cases (y : List Byte) :
    (∃ reason, deframe y = .error (.protocol reason)) ∨ ∃ r, y = dle :: stx :: r ∧ deframe y = unstuff false r := by
  rcases y with _ | ⟨b, _ | ⟨c, r⟩⟩
  · exact .inl ⟨_, deframe_nil⟩
  · by_cases hb : b = dle
    · exact .inl ⟨_, hb ▸ deframe_dle⟩
    · exact .inl ⟨_, deframe_of_ne_dle hb _⟩
  · by_cases hb : b = dle
    · subst hb
      by_cases hc : c = stx
      · subst hc
        exact .inr ⟨r, rfl, deframe_opening r⟩
      · exact .inl ⟨_, deframe_of_ne_stx hc r⟩
    · exact .inl ⟨_, deframe_of_ne_dle hb _⟩

theorem deframe_frame (p : List Byte) : deframe (frame p) = .ok p :=
  (deframe_opening _).trans (unstuff_stuff_close p)

theorem deframe_eq_ok_iff (p y : List Byte) : deframe y = .ok p ↔ frame p = y := by
  constructor
  · intro h
    rcases deframe_cases y with ⟨reason, herror⟩ | ⟨r, rfl, hr⟩
    · rw [herror] at h
      cases h
    · have hclose := eq_stuff_close_of_unstuff_eq_ok (hr.symm.trans h)
      exact congrArg ([dle, stx] ++ ·) hclose.symm
  · rintro rfl
    exact deframe_frame p

theorem deframe_error {y : List Byte} {e : BufferError} (h : deframe y = .error e) : ∃ reason, e = .protocol reason := by
  rcases deframe_cases y with ⟨reason, herror⟩ | ⟨r, -, hr⟩
  · rw [herror] at h
    cases h
    exact ⟨reason, rfl⟩
  · exact unstuff_error (hr.symm.trans h)

theorem frame_injective : Function.Injective frame := by
  intro p q h
  have hok : Except.ok p = Except.ok (ε := BufferError) q := by rw [← deframe_frame p, h, deframe_frame]
  exact Except.ok.inj hok

/-- R133's tokens are the codewords of the bytes. -/
theorem isToken_iff (u : List Byte) :
    (u = [0x10, 0x10] ∨ ∃ b : Byte, b ≠ 0x10 ∧ u = [b]) ↔ ∃ b, stuffByte b = u := by
  constructor
  · rintro (rfl | ⟨b, hb, rfl⟩)
    · exact ⟨dle, stuffByte_dle⟩
    · exact ⟨b, stuffByte_of_ne_dle hb⟩
  · rintro ⟨b, rfl⟩
    by_cases hb : b = dle
    · exact .inl (hb ▸ stuffByte_dle)
    · exact .inr ⟨b, hb, stuffByte_of_ne_dle hb⟩

/-- Settles O47: the partial inverse is `deframe_eq_ok_iff`, and a list of tokens is the codewords of a payload. -/
theorem deframeIsThePartialInverse : Obligations.DeframeIsThePartialInverse := by
  refine ⟨deframe_eq_ok_iff, ?noFrame, frame_injective, ?tokens⟩
  case noFrame =>
    intro y hy
    cases h : deframe y with
    | ok p => exact absurd ((deframe_eq_ok_iff p y).1 h) (hy p)
    | error e =>
      obtain ⟨reason, rfl⟩ := deframe_error h
      exact ⟨reason, rfl⟩
  case tokens =>
    intro y
    constructor
    · rintro ⟨p, rfl⟩
      refine ⟨p.map stuffByte, fun u hu => ?_, by rw [frame, stuff_eq_flatten]⟩
      obtain ⟨b, -, hb⟩ := List.mem_map.1 hu
      exact (isToken_iff u).2 ⟨b, hb⟩
    · rintro ⟨tokens, htokens, rfl⟩
      obtain ⟨p, rfl⟩ : ∃ p : List Byte, p.map stuffByte = tokens :=
        (Set.range_list_map stuffByte).symm.subset fun u hu => (isToken_iff u).1 (htokens u hu)
      exact ⟨p, by rw [frame, stuff_eq_flatten]⟩

/-- Settles O48: the definitions, the two counts of `stuff_length`, and `deframe_frame`. -/
theorem frameLaws : Obligations.FrameLaws := by
  refine ⟨fun p => ⟨rfl, ?length⟩, rfl, fun _ _ => rfl, deframe_frame, rfl, deframe_frame [], fun p q => ?append⟩
  case length =>
    have hlength : (frame p).length = 2 + (p.length + p.countP (· == 0x10)) + 2 := by
      rw [frame, List.length_append, List.length_append, stuff_length]
      rfl
    omega
  case append => simp only [frame, stuff_append, List.append_assoc]

/-! ## Packets -/

theorem unpacket_eq_ok_iff (y x : List Byte) : unpacket y = .ok x ↔ ∃ u, deframe y = .ok u ∧ verify u = .ok x := by
  rw [unpacket]
  cases deframe y with
  | error e => simp [Except.bind]
  | ok u => simp [Except.bind]

/-- Settles O49: `unpacket` runs `deframe` and `verify`, and each undoes its half of `packet`. -/
theorem unpackUndoesPacket : Obligations.UnpackUndoesPacket :=
  ⟨fun _ => rfl, unpacket_eq_ok_iff,
   fun p => (unpacket_eq_ok_iff _ _).2 ⟨_, deframe_frame _, verifyUndoesChecksum p⟩,
   by decide +kernel, by decide +kernel⟩

end Sys2Proof.Machine

/-! PROOFS: the transmitter emits frames and the receiver takes them in (42_framer.md R142, R143, R145,
70_reset_and_hazards.md R185, R186, R190, R191). What the receiver answers to a sequence is compared with `deframe` byte by
byte: each state of the receiver has read what one case of `unstuff` has. -/

namespace Sys2Proof.Machine

/-- The effects of commands and one more. -/
theorem effectsOf_concat (is : List Instr) (i : Instr) (r : Registers) :
    effectsOf (is ++ [i]) r =
      ((effectOf i (effectsOf is r).1).1, (effectsOf is r).2 ++ [(effectOf i (effectsOf is r).1).2]) := by
  rw [effectsOf_append]
  rfl

@[simp] theorem outBytes_cons (p : Response) (ps : List Response) : outBytes (p :: ps) = p.out ++ outBytes ps := rfl

/-! ## The transmitter -/

/-- The bytes that a transmit command emits. -/
def transmitted : Instr → List Byte
  | .ftxBegin => [dle, stx]
  | .ftxByte b => stuffByte b
  | .ftxEnd => [dle, etx]
  | _ => []

theorem transmitter_cases {i : Instr} (h : i.unit = .transmitter) :
    i = .ftxBegin ∨ (∃ b, i = .ftxByte b) ∨ i = .ftxEnd := by
  cases i with
  | ftxBegin => exact .inl rfl
  | ftxByte b => exact .inr (.inl ⟨b, rfl⟩)
  | ftxEnd => exact .inr (.inr rfl)
  | enc | dec | crcInit | crcFeed | crcTag | vfyInit | vfyFeed | vfyEnd | frxInit | frxByte | frxEnd | frxStat => cases h

theorem effectOf_of_transmitter {i : Instr} (h : i.unit = .transmitter) (r : Registers) :
    effectOf i r = (r, .okWith 0 (transmitted i)) := by
  rcases transmitter_cases h with rfl | ⟨b, rfl⟩ | rfl
  all_goals rfl

theorem effectsOf_of_transmitter {is : List Instr} (h : ∀ i ∈ is, i.unit = .transmitter) (r : Registers) :
    effectsOf is r = (r, is.map fun i => .okWith 0 (transmitted i)) := by
  induction is with
  | nil => rfl
  | cons i is ih =>
    obtain ⟨hi, his⟩ := List.forall_mem_cons.1 h
    rw [effectsOf_cons, effectOf_of_transmitter hi, ih his]
    rfl

theorem outBytes_transmitted (is : List Instr) :
    outBytes (is.map fun i => .okWith 0 (transmitted i)) = is.flatMap transmitted := List.flatMap_map _ _ is

/-- Transmit commands run, answer OK and emit their bytes one after another. -/
theorem exists_run_of_transmitter {is : List Instr} (h : ∀ i ∈ is, i.unit = .transmitter) (s : State) :
    ∃ t, Runs s is t (is.map fun i => .okWith 0 (transmitted i)) := by
  obtain ⟨t, hrun, -⟩ := exists_run is s
  rw [effectsOf_of_transmitter h] at hrun
  exact ⟨t, hrun⟩

theorem ftxFrame_unit (p : List Byte) : ∀ i ∈ (Pseudo.ftxFrame p).expand, i.unit = .transmitter := by
  intro i hi
  simp only [Pseudo.expand, List.mem_append, List.mem_singleton, List.mem_map] at hi
  rcases hi with (rfl | ⟨b, -, rfl⟩) | rfl
  all_goals rfl

theorem flatMap_transmitted_ftxFrame (p : List Byte) : (Pseudo.ftxFrame p).expand.flatMap transmitted = frame p := by
  have hbytes : (p.map Instr.ftxByte).flatMap transmitted = stuff p := by
    rw [List.flatMap_map, stuff_eq_flatten]
    rfl
  rw [Pseudo.expand, List.flatMap_append, List.flatMap_append, hbytes]
  rfl

/-- Settles O50: the bytes that the three parts of FTX_FRAME emit are the three parts of the frame. -/
theorem transmitCommandsEmitTheFrame : Obligations.TransmitCommandsEmitTheFrame := by
  intro s p
  obtain ⟨t, hrun⟩ := exists_run_of_transmitter (ftxFrame_unit p) s
  refine ⟨t, _, hrun, ?_, ?_⟩
  · rw [outBytes_transmitted, flatMap_transmitted_ftxFrame]
  · simp

/-- The command that emits DLE and the byte `d`. -/
def pairCommand (d : Byte) : Instr := if d = stx then .ftxBegin else if d = etx then .ftxEnd else .ftxByte dle

/-- A transmit command emits one byte other than DLE, or DLE and a second byte, and the bytes tell which it is. -/
theorem transmitted_cases {i : Instr} (h : i.unit = .transmitter) :
    (∃ c, c ≠ dle ∧ transmitted i = [c] ∧ i = .ftxByte c) ∨ ∃ d, transmitted i = [dle, d] ∧ i = pairCommand d := by
  rcases transmitter_cases h with rfl | ⟨b, rfl⟩ | rfl
  · exact .inr ⟨stx, rfl, rfl⟩
  · by_cases hb : b = dle
    · exact .inr ⟨dle, hb ▸ stuffByte_dle, by rw [hb]; rfl⟩
    · exact .inl ⟨b, hb, stuffByte_of_ne_dle hb, rfl⟩
  · exact .inr ⟨etx, rfl, rfl⟩

theorem transmitted_ne_nil {i : Instr} (h : i.unit = .transmitter) : transmitted i ≠ [] := by
  rcases transmitted_cases h with ⟨c, -, hc, -⟩ | ⟨d, hd, -⟩
  · simp [hc]
  · simp [hd]

/-- No command's bytes begin another's. -/
theorem transmitted_append_inj {i j : Instr} (hi : i.unit = .transmitter) (hj : j.unit = .transmitter) {y z : List Byte}
    (h : transmitted i ++ y = transmitted j ++ z) : i = j ∧ y = z := by
  rcases transmitted_cases hi with ⟨c, hc, hci, hic⟩ | ⟨d, hd, hid⟩ <;>
    rcases transmitted_cases hj with ⟨c', hc', hcj, hjc⟩ | ⟨d', hd', hjd⟩
  · rw [hci, hcj] at h
    obtain ⟨rfl, hyz⟩ := List.cons.inj h
    exact ⟨hic.trans hjc.symm, hyz⟩
  · rw [hci, hd'] at h
    exact absurd (List.cons.inj h).1 hc
  · rw [hd, hcj] at h
    exact absurd (List.cons.inj h).1.symm hc'
  · rw [hd, hd'] at h
    obtain ⟨rfl, hyz⟩ := List.cons.inj (List.cons.inj h).2
    exact ⟨hid.trans hjd.symm, hyz⟩

/-- Transmit commands are read back from the bytes they emit. -/
theorem eq_of_flatMap_transmitted_eq {is js : List Instr} (his : ∀ i ∈ is, i.unit = .transmitter)
    (hjs : ∀ j ∈ js, j.unit = .transmitter) (h : is.flatMap transmitted = js.flatMap transmitted) : is = js := by
  induction is generalizing js with
  | nil =>
    cases js with
    | nil => rfl
    | cons j js => exact absurd (List.append_eq_nil_iff.1 h.symm).1 (transmitted_ne_nil (List.forall_mem_cons.1 hjs).1)
  | cons i is ih =>
    obtain ⟨hi, hrest⟩ := List.forall_mem_cons.1 his
    cases js with
    | nil => exact absurd (List.append_eq_nil_iff.1 h).1 (transmitted_ne_nil hi)
    | cons j js =>
      obtain ⟨hj, hrest'⟩ := List.forall_mem_cons.1 hjs
      obtain ⟨rfl, htail⟩ := transmitted_append_inj hi hj h
      rw [ih hrest hrest' htail]

/-- Settles O51: a frame's bytes are those of FTX_FRAME, and they tell the commands. -/
theorem onlyBracketedCommandsEmitAFrame : Obligations.OnlyBracketedCommandsEmitAFrame := by
  intro s is his
  obtain ⟨t, hrun⟩ := exists_run_of_transmitter his s
  refine ⟨t, _, hrun, fun p hp => eq_of_flatMap_transmitted_eq his (ftxFrame_unit p) ?_⟩
  rw [← outBytes_transmitted, hp, flatMap_transmitted_ftxFrame]

/-! ## The receiver -/

/-- What R143 says of the responses `ps` to the bytes of a sequence and of the answer `p` of FRX_END, by what `deframe` returns
for it. -/
def AnswersDeframe (x : Except BufferError (List Byte)) (ps : List Response) (p : Response) : Prop :=
  match x with
  | .ok payload => (∀ q ∈ ps ++ [p], q.status = .ok) ∧ outBytes ps = payload
  | .error (.protocol reason) =>
    p = ⟨.protocolError, reason.code.setWidth 32, []⟩ ∧
    p.value = ((ps.find? fun q => q.status ≠ .ok).map Response.value).getD 0x00000006
  | .error _ => False

/-- The receiver's answers to the bytes of `y` and to FRX_END, on registers `r`, are those of R143 for `x`. -/
def ReceiverAnswers (y : List Byte) (r : Registers) (x : Except BufferError (List Byte)) : Prop :=
  AnswersDeframe x (effectsOf (y.map .frxByte) r).2 (frxEndResponse (effectsOf (y.map .frxByte) r).1)

theorem AnswersDeframe.cons_ok {x : Except BufferError (List Byte)} {ps : List Response} {p : Response}
    (h : AnswersDeframe x ps p) (out : List Byte) : AnswersDeframe (x.map (out ++ ·)) (.okWith 0 out :: ps) p := by
  cases x with
  | ok payload =>
    obtain ⟨hok, hout⟩ := h
    exact ⟨List.forall_mem_cons.2 ⟨rfl, hok⟩, congrArg (out ++ ·) hout⟩
  | error e =>
    cases e with
    | protocol reason => exact h
    | checksum | validation => exact h

section ReceiverStep

variable {b : Byte} {y : List Byte} {r : Registers} {x : Except BufferError (List Byte)} {st : RxState}

/-- The receiver goes on and emits nothing: it answers to what follows in its next state. -/
theorem receiverAnswers_silent (hb : frxByte b r = r.receiveTo st []) (h : ReceiverAnswers y { r with rxs := st } x) :
    ReceiverAnswers (b :: y) r x := by
  have hcons := h.cons_ok []
  have hx : x.map (([] : List Byte) ++ ·) = x := by cases x <;> rfl
  rw [hx] at hcons
  rwa [ReceiverAnswers, List.map_cons, effectsOf_cons, effectOf_frxByte, hb]

/-- The receiver goes on and emits a payload byte. -/
theorem receiverAnswers_emit {c : Byte} (hb : frxByte b r = r.receiveTo st [c])
    (h : ReceiverAnswers y { r with rxs := st } x) : ReceiverAnswers (b :: y) r (x.map (c :: ·)) := by
  rw [ReceiverAnswers, List.map_cons, effectsOf_cons, effectOf_frxByte, hb]
  exact h.cons_ok [c]

/-- In ERROR every byte is answered with the latched reason, and nothing changes. -/
theorem effectsOf_frxBytes_of_error (h : r.rxs = .error) (y : List Byte) :
    effectsOf (y.map .frxByte) r = (r, List.replicate y.length (.raiseLatched r.rxwhy)) := by
  induction y with
  | nil => rfl
  | cons b y ih =>
    rw [List.map_cons, effectsOf_cons, effectOf_frxByte, frxByte_of_error h, ih]
    rfl

/-- The receiver latches an error: it is the first failing response, and FRX_END repeats it whatever follows. -/
theorem receiverAnswers_latch {w : RxWhy} {reason : Reason} (hb : frxByte b r = r.latchError w)
    (hcode : Response.raiseLatched w = .raiseProtocol reason) :
    ReceiverAnswers (b :: y) r (.error (.protocol reason)) := by
  have hend : frxEndResponse { r with rxs := .error, rxwhy := w } = .raiseLatched w := rfl
  rw [ReceiverAnswers, List.map_cons, effectsOf_cons, effectOf_frxByte, hb]
  simp only [Registers.latchError]
  rw [effectsOf_frxBytes_of_error rfl]
  simp only [hend]
  exact ⟨hcode, rfl⟩

end ReceiverStep

/-- In DONE the frame is complete, and a byte after it is TRAILING. -/
theorem receiverAnswers_of_done {r : Registers} (h : r.rxs = .done) (y : List Byte) :
    ReceiverAnswers y r (if y = [] then .ok [] else .error (.protocol .trailing)) := by
  cases y with
  | nil =>
    have hend : frxEndResponse r = .okWith 0 [] := by rw [frxEndResponse_eq, if_pos h]; rfl
    refine ⟨fun q hq => ?_, rfl⟩
    obtain rfl := List.mem_singleton.1 hq
    exact hend ▸ rfl
  | cons b y => exact receiverAnswers_latch (frxByte_of_done h b) rfl

/-- Without an end of the frame FRX_END answers TRUNCATED. -/
theorem receiverAnswers_truncated {r : Registers} (hdone : r.rxs ≠ .done) (herror : r.rxs ≠ .error) :
    ReceiverAnswers [] r (.error (.protocol .truncated)) := by
  have hend : frxEndResponse r = ⟨.protocolError, 0x00000006, []⟩ := by
    rw [frxEndResponse_eq, if_neg hdone, if_neg herror]
  exact ⟨hend, congrArg Response.value hend⟩

/-- Inside the payload, with an unpaired DLE just read or not, the receiver answers what `unstuff` does. -/
theorem receiverAnswers_unstuff (y : List Byte) {escaped : Bool} {r : Registers}
    (h : r.rxs = if escaped then .esc else .data) : ReceiverAnswers y r (unstuff escaped y) := by
  induction y generalizing escaped r with
  | nil => exact receiverAnswers_truncated (by cases escaped <;> simp [h]) (by cases escaped <;> simp [h])
  | cons b y ih =>
    cases escaped with
    | false =>
      have hdata : r.rxs = .data := h
      by_cases hb : b = dle
      · subst hb
        rw [unstuff_dle]
        exact receiverAnswers_silent ((frxByte_of_data hdata dle).trans (if_pos rfl)) (ih rfl)
      · rw [unstuff_of_ne_dle hb]
        exact receiverAnswers_emit ((frxByte_of_data hdata b).trans (if_neg hb)) (ih rfl)
    | true =>
      have hesc : r.rxs = .esc := h
      by_cases hb : b = dle
      · subst hb
        rw [unstuff_escaped_dle]
        exact receiverAnswers_emit ((frxByte_of_esc hesc dle).trans (if_pos rfl)) (ih rfl)
      have hbyte := (frxByte_of_esc hesc b).trans (if_neg hb)
      by_cases hb' : b = etx
      · subst hb'
        rw [unstuff_escaped_etx]
        exact receiverAnswers_silent (hbyte.trans (if_pos rfl)) (receiverAnswers_of_done rfl y)
      · rw [unstuff_escaped_of_ne hb hb']
        exact receiverAnswers_latch (hbyte.trans (if_neg hb')) rfl

/-- From START the receiver answers what `deframe` does (R143). -/
theorem receiverAnswers_deframe {r : Registers} (h : r.rxs = .start) (y : List Byte) :
    ReceiverAnswers y r (deframe y) := by
  cases y with
  | nil => exact receiverAnswers_truncated (by simp [h]) (by simp [h])
  | cons b y =>
    by_cases hb : b = dle
    · subst hb
      have hopened := (frxByte_of_start h dle).trans (if_pos rfl)
      refine receiverAnswers_silent hopened ?_
      cases y with
      | nil => exact receiverAnswers_truncated RxState.noConfusion RxState.noConfusion
      | cons c y =>
        have hbyte := frxByte_of_hdr (r := { r with rxs := .hdr }) rfl c
        by_cases hc : c = stx
        · subst hc
          rw [deframe_opening]
          exact receiverAnswers_silent (hbyte.trans (if_pos rfl)) (receiverAnswers_unstuff y (escaped := false) rfl)
        · rw [deframe_of_ne_stx hc]
          exact receiverAnswers_latch (hbyte.trans (if_neg hc)) rfl
    · rw [deframe_of_ne_dle hb]
      exact receiverAnswers_latch ((frxByte_of_start h b).trans (if_neg hb)) rfl

/-- Settles O52: FRX_END answers from the registers that the bytes leave. -/
theorem receiverComputesDeframe : Obligations.ReceiverComputesDeframe := by
  intro s y hstart
  obtain ⟨t, hrun, -⟩ := exists_run (y.map Instr.frxByte ++ [Instr.frxEnd]) s
  rw [effectsOf_concat] at hrun
  exact ⟨t, _, _, by rw [effectsOf_length, List.length_map], hrun, receiverAnswers_deframe hstart y⟩

theorem frxEndResponse_status_eq_ok_iff (r : Registers) : (frxEndResponse r).status = .ok ↔ r.rxs = .done := by
  rcases frxEndResponse_cases r with ⟨hx, hp⟩ | ⟨hx, hp⟩ | ⟨hdone, -, hp⟩
  · simp [hp, hx]
  · simp [hp, hx]
  · simp [hp, hdone]

/-- FRX_END answers OK exactly where `deframe` returns a payload. -/
theorem AnswersDeframe.status_eq_ok_iff {x : Except BufferError (List Byte)} {ps : List Response} {p : Response}
    (h : AnswersDeframe x ps p) : p.status = .ok ↔ ∃ payload, x = .ok payload := by
  cases x with
  | ok payload => exact iff_of_true (h.1 p (List.mem_append_right _ (List.mem_singleton_self p))) ⟨payload, rfl⟩
  | error e =>
    cases e with
    | protocol reason =>
      have hp : p.status ≠ .ok := by simp [h.1]
      exact iff_of_false hp (by simp)
    | checksum | validation => exact h.elim

/-- From START the bytes of a sequence lead to DONE exactly if it is a frame. -/
theorem exists_frame_iff_done {r : Registers} (h : r.rxs = .start) (y : List Byte) :
    (∃ u, frame u = y) ↔ (effectsOf (y.map .frxByte) r).1.rxs = .done := by
  rw [← frxEndResponse_status_eq_ok_iff, (receiverAnswers_deframe h y).status_eq_ok_iff]
  simp only [deframe_eq_ok_iff]

theorem effectsOf_frxBytes_keeps_latchOk (y : List Byte) {r : Registers} (h : r.latchOk) :
    (effectsOf (y.map .frxByte) r).1.latchOk := by
  induction y generalizing r with
  | nil => exact h
  | cons b y ih => exact ih (frxByte_keeps_latchOk b h)

/-- With no reason latched outside ERROR, FRX_STAT reads 4 in DONE only (R141, R145). -/
theorem frxStat_eq_four_iff_done {r : Registers} (h : r.latchOk) :
    Response.okWith (receiverStatusValue r.rxs r.rxwhy) [] = ⟨.ok, 0x00000004, []⟩ ↔ r.rxs = .done := by
  have hvalue : Response.okWith (receiverStatusValue r.rxs r.rxwhy) [] = ⟨.ok, 0x00000004, []⟩ ↔
      receiverStatusValue r.rxs r.rxwhy = 0x04 := by simp [Response.okWith]
  rw [hvalue, receiverStatusValue_eq_four_iff]
  exact and_iff_left_of_imp fun hdone => h.2 (by simp [hdone])

/-- Settles O53: FRX_STAT changes no register, and the reason stays 0 until ERROR. -/
theorem doneMarksTheCompleteFrame : Obligations.DoneMarksTheCompleteFrame := by
  refine ⟨fun s y hstart hwhy => ?_, by decide +kernel⟩
  have hlatch : s.regs.latchOk := iff_of_true hwhy (by simp [hstart])
  obtain ⟨t, hrun, hregs⟩ := exists_run (y.map Instr.frxByte ++ [Instr.frxStat]) s
  rw [effectsOf_concat] at hrun hregs
  refine ⟨t, _, _, hrun, ?_⟩
  rw [hregs]
  exact ⟨exists_frame_iff_done hstart y, (frxStat_eq_four_iff_done (effectsOf_frxBytes_keeps_latchOk y hlatch)).symm⟩

/-- The host accepts what `deframe` returns, and nothing where it fails (R185). -/
theorem AnswersDeframe.acceptedPayload {x : Except BufferError (List Byte)} {ps : List Response} {p : Response}
    (h : AnswersDeframe x ps p) : acceptedPayload ps p = x.toOption := by
  cases x with
  | ok payload =>
    have hok := h.status_eq_ok_iff.2 ⟨payload, rfl⟩
    rw [Machine.acceptedPayload, if_pos hok, h.2]
    rfl
  | error e =>
    have hfail : p.status ≠ .ok := fun hok => by simpa using h.status_eq_ok_iff.1 hok
    rw [Machine.acceptedPayload, if_neg hfail]
    rfl

/-- The host accepts what `verify` returns, and nothing where it fails (R185). -/
theorem AnswersVerify.acceptedPayload {x : List Byte} {ps : List Response} {p : Response}
    (h : AnswersVerify x ps p) : acceptedPayload ps p = (verify x).toOption := by
  unfold AnswersVerify at h
  cases hv : verify x with
  | ok payload =>
    rw [hv] at h
    rw [Machine.acceptedPayload, if_pos h.1, h.2]
    rfl
  | error e =>
    rw [hv] at h
    have hfail : p.status ≠ .ok := by
      cases e with
      | protocol reason => simp [h.2.1]
      | checksum received expected => simp [h.1]
      | validation => exact h.elim
    rw [Machine.acceptedPayload, if_neg hfail]
    rfl

/-- Settles O54: each FRX_END re-arms the receiver for the next frame, and in DONE the next byte is TRAILING. -/
theorem oneFramePerEnd : Obligations.OneFramePerEnd := by
  constructor
  · intro s p q hstart
    obtain ⟨t, hrun, -⟩ :=
      exists_run (((frame p).map Instr.frxByte ++ [Instr.frxEnd]) ++ ((frame q).map Instr.frxByte ++ [Instr.frxEnd])) s
    rw [effectsOf_append, effectsOf_concat, effectsOf_concat] at hrun
    refine ⟨t, _, _, _, _, ?_, ?_, hrun, ?_, ?_⟩
    · rw [effectsOf_length, List.length_map]
    · rw [effectsOf_length, List.length_map]
    · exact (receiverAnswers_deframe hstart (frame p)).acceptedPayload.trans (by rw [deframe_frame]; rfl)
    · exact (receiverAnswers_deframe rfl (frame q)).acceptedPayload.trans (by rw [deframe_frame]; rfl)
  · intro s p b hstart
    rw [List.map_append, List.map_singleton]
    obtain ⟨t, hrun, -⟩ := exists_run ((frame p).map Instr.frxByte ++ [Instr.frxByte b]) s
    rw [effectsOf_concat, effectsOf_frxBytes_frame hstart] at hrun
    exact ⟨t, _, _, hrun, rfl⟩

/-! ## The receive path -/

/-- Receiving raw bytes changes the receiver's registers only, and FRX_END leaves them armed. -/
theorem effectsOf_receive_fst (y : List Byte) (r : Registers) :
    (effectsOf ([Instr.frxInit] ++ y.map Instr.frxByte ++ [Instr.frxEnd]) r).1 = r.armReceiver := by
  have hunit : ∀ i ∈ [Instr.frxInit] ++ y.map Instr.frxByte, i.unit = .receiver := by
    simp [Instr.unit, Instr.mnemonic, Mnemonic.unit]
  rw [effectsOf_concat]
  refine Registers.eq_of_agreeOn fun u => ?_
  by_cases hu : u = .receiver
  · subst hu
    exact ⟨rfl, rfl⟩
  · have hbefore := effectsOf_agreeOn_other hunit hu r
    exact ((Registers.agreeOn_of_write_receiver hu _ _ _).trans hbefore).trans
      (Registers.agreeOn_of_write_receiver hu r _ _).symm

/-- Checking bytes changes the checker's registers only, and VFY_END leaves them armed. -/
theorem effectsOf_check_fst (x : List Byte) (r : Registers) :
    (effectsOf ([Instr.vfyInit] ++ x.map Instr.vfyFeed ++ [Instr.vfyEnd]) r).1 = r.armChecker := by
  have hunit : ∀ i ∈ [Instr.vfyInit] ++ x.map Instr.vfyFeed, i.unit = .checker := by
    simp [Instr.unit, Instr.mnemonic, Mnemonic.unit]
  rw [effectsOf_concat]
  refine Registers.eq_of_agreeOn fun u => ?_
  by_cases hu : u = .checker
  · subst hu
    exact ⟨rfl, rfl, rfl, rfl⟩
  · have hbefore := effectsOf_agreeOn_other hunit hu r
    exact ((Registers.agreeOn_of_write_checker hu _ _ _ _ _).trans hbefore).trans
      (Registers.agreeOn_of_write_checker hu r _ _ _ _).symm

/-- The bytes of a sequence between FRX_INIT and FRX_END: one response each, as `deframe` returns. -/
theorem exists_run_receive (y : List Byte) (s : State) :
    ∃ t armed ps p, ps.length = y.length ∧
      Runs s ([Instr.frxInit] ++ y.map Instr.frxByte ++ [Instr.frxEnd]) t ([armed] ++ ps ++ [p]) ∧
      AnswersDeframe (deframe y) ps p ∧ t.regs = s.regs.armReceiver := by
  obtain ⟨t, hrun, hregs⟩ := exists_run ([Instr.frxInit] ++ y.map Instr.frxByte ++ [Instr.frxEnd]) s
  rw [effectsOf_receive_fst] at hregs
  rw [effectsOf_concat, List.singleton_append, effectsOf_cons] at hrun
  exact ⟨t, _, _, _, by rw [effectsOf_length, List.length_map], hrun,
    receiverAnswers_deframe s.regs.armReceiver_rxs y, hregs⟩

/-- The bytes of a sequence between VFY_INIT and VFY_END: one response each, as `verify` returns. -/
theorem exists_run_check (x : List Byte) (s : State) :
    ∃ t armed ps p, ps.length = x.length ∧
      Runs s ([Instr.vfyInit] ++ x.map Instr.vfyFeed ++ [Instr.vfyEnd]) t ([armed] ++ ps ++ [p]) ∧
      AnswersVerify x ps p ∧ t.regs = s.regs.armChecker := by
  obtain ⟨t, hrun, hregs⟩ := exists_run ([Instr.vfyInit] ++ x.map Instr.vfyFeed ++ [Instr.vfyEnd]) s
  rw [effectsOf_check_fst] at hregs
  rw [effectsOf_concat, List.singleton_append, effectsOf_cons] at hrun
  exact ⟨t, _, _, _, by rw [effectsOf_length, List.length_map], hrun, effectsOf_vfyFeeds_answersVerify x s.regs, hregs⟩

/-- The payload accepted from both ENDs is what `unpacket` returns: only where `deframe` returns one do the bytes that the
receiver emitted count. -/
theorem acceptedPayload_bind_eq_unpacket {y : List Byte} {framed checked : List Response} {frameEnd checkEnd : Response}
    (hframe : AnswersDeframe (deframe y) framed frameEnd) (hcheck : AnswersVerify (outBytes framed) checked checkEnd) :
    ((acceptedPayload framed frameEnd).bind fun _ => acceptedPayload checked checkEnd) = (unpacket y).toOption := by
  rw [hframe.acceptedPayload, hcheck.acceptedPayload, unpacket]
  cases h : deframe y with
  | error e => rfl
  | ok u =>
    rw [h] at hframe
    rw [hframe.2]
    rfl

/-- Settles O55: the receiver's run and the checker's, one after the other. -/
theorem receivePathComputesUnpacket : Obligations.ReceivePathComputesUnpacket := by
  intro s y
  obtain ⟨mid, armed, framed, frameEnd, hframed, hreceive, hframe, hmid⟩ := exists_run_receive y s
  obtain ⟨t, armed', checked, checkEnd, hchecked, hverify, hcheck, ht⟩ := exists_run_check (outBytes framed) mid
  refine ⟨t, (unpacket y).toOption, ?receives, by cases unpacket y <;> rfl, by rw [ht, hmid]; rfl⟩
  exact ⟨mid, armed, framed, frameEnd, armed', checked, checkEnd, hframed, hchecked, hreceive, hverify,
    (acceptedPayload_bind_eq_unpacket hframe hcheck).symm⟩

end Sys2Proof.Machine

/-! PROOFS: the codec (40_codec.md R80 to R93). The permitted set as the rules list it, how many bytes decode into it, the
round-trip laws, and ENC and DEC over sequences. -/

namespace Sys2Proof

/-! ## The permitted set -/

theorem mem_codePointRange_iff {first count : Nat} (h : first + count ≤ 2 ^ 21) (c : CodePoint) :
    c ∈ codePointRange first count ↔ first ≤ c.toNat ∧ c.toNat < first + count := by
  simp only [codePointRange, List.mem_map, List.mem_range]
  constructor
  · rintro ⟨k, hk, rfl⟩
    rw [BitVec.toNat_ofNat, Nat.mod_eq_of_lt (by omega)]
    omega
  · rintro ⟨hlow, hhigh⟩
    exact ⟨c.toNat - first, by omega, by rw [Nat.add_sub_cancel' hlow, BitVec.ofNat_toNat, BitVec.setWidth_eq]⟩

theorem mem_letters_iff (c : CodePoint) :
    c ∈ letters ↔ (0x41 ≤ c.toNat ∧ c.toNat ≤ 0x5A) ∨ (0x61 ≤ c.toNat ∧ c.toNat ≤ 0x7A) := by
  rw [letters, List.mem_append, mem_codePointRange_iff (by norm_num), mem_codePointRange_iff (by norm_num)]
  omega

theorem mem_digits_iff (c : CodePoint) : c ∈ digits ↔ 0x30 ≤ c.toNat ∧ c.toNat ≤ 0x39 := by
  rw [digits, mem_codePointRange_iff (by norm_num)]
  omega

theorem CharRom.mem_extension_iff (r : CharRom) (c : CodePoint) :
    c ∈ r.extension ↔ c ∈ ([0xB7, 0x2022, 0x2500, 0x2501, 0x2588] : List CodePoint) ∨ c = r.oneEighth.codePoint := by
  have hext : r.extension = [0xB7, 0x2022, 0x2500, 0x2501, 0x2588] ++ [r.oneEighth.codePoint] := rfl
  rw [hext, List.mem_append, List.mem_singleton]

theorem CharRom.mem_permitted_iff (r : CharRom) (c : CodePoint) :
    c ∈ r.permitted ↔
      (0x41 ≤ c.toNat ∧ c.toNat ≤ 0x5A) ∨ (0x61 ≤ c.toNat ∧ c.toNat ≤ 0x7A) ∨
      (0x30 ≤ c.toNat ∧ c.toNat ≤ 0x39) ∨ c = 0x20 ∨
      (c ∈ defaultPunct ∧ r.keepsPunct c = true) ∨
      c ∈ ([0xB7, 0x2022, 0x2500, 0x2501, 0x2588] : List CodePoint) ∨ c = r.oneEighth.codePoint := by
  rw [permitted, List.mem_append, List.mem_append, List.mem_append, List.mem_append, mem_letters_iff, mem_digits_iff,
    List.mem_singleton, space, punctSet, List.mem_filter, mem_extension_iff]
  simp only [or_assoc]

/-- The permitted set under the default `PUNCT_SET`, of which every permitted set is a part. -/
def permittedWith (e : OneEighth) : List CodePoint :=
  refAscii ++ [0xB7, 0x2022, 0x2500, 0x2501, 0x2588, e.codePoint]

theorem permittedWith_nodup (e : OneEighth) : (permittedWith e).Nodup := by
  cases e <;> decide +kernel

theorem CharRom.permitted_sublist (r : CharRom) : r.permitted.Sublist (permittedWith r.oneEighth) :=
  ((List.Sublist.refl _).append List.filter_sublist).append (List.Sublist.refl _)

theorem CharRom.permitted_nodup (r : CharRom) : r.permitted.Nodup :=
  (permittedWith_nodup r.oneEighth).sublist r.permitted_sublist

theorem CharRom.permitted_length (r : CharRom) : r.permitted.length = 69 + r.punctSet.length := by
  simp only [permitted, letters, digits, codePointRange, extension, List.length_append, List.length_map, List.length_range,
    List.length_cons, List.length_nil]
  omega

/-- Settles O56: membership list by list, and the permitted set as a part of the one under the default `PUNCT_SET`. -/
theorem permittedSetIsThatOfTheRules : Obligations.PermittedSetIsThatOfTheRules := by
  intro r
  refine ⟨r.mem_permitted_iff, rfl, r.oneEighth.codePoint_mem, r.permitted_nodup, r.permitted_length, ?default,
    fun c hc => r.not_permitted_of_marker_or_excluded c (List.mem_append_left _ hc)⟩
  case default =>
    intro hall
    have hpunct : r.punctSet = defaultPunct := List.filter_eq_self.2 hall
    rw [r.permitted_length, hpunct]
    rfl

/-! ## How many bytes decode where -/

theorem CharRom.replacementChar_not_permitted (r : CharRom) : replacementChar ∉ r.permitted :=
  r.not_permitted_of_marker_or_excluded replacementChar (by simp)

/-- One more character adds the bytes that decode to it. -/
theorem countP_dec_mem_cons (dec : Byte → CodePoint) {c : CodePoint} {l : List CodePoint} (hc : c ∉ l) (bs : List Byte) :
    (bs.countP fun b => decide (dec b ∈ c :: l)) =
      (bs.countP fun b => dec b == c) + bs.countP fun b => decide (dec b ∈ l) := by
  induction bs with
  | nil => rfl
  | cons b bs ih =>
    rw [List.countP_cons, List.countP_cons, List.countP_cons, ih]
    by_cases hb : dec b = c
    · simp [hb, hc]
      omega
    · simp [hb, Nat.add_assoc]

/-- The bytes that decode into a list of distinct characters are those that decode to each of them. -/
theorem CharRom.countP_dec_mem (r : CharRom) {l : List CodePoint} (h : l.Nodup) :
    (allBytes.countP fun b => decide (r.dec b ∈ l)) = (l.map r.decodings).sum := by
  induction l with
  | nil => simp
  | cons c l ih =>
    obtain ⟨hc, hl⟩ := List.nodup_cons.1 h
    rw [countP_dec_mem_cons r.dec hc, ih hl]
    rfl

theorem CharRom.oneEighth_permitted (r : CharRom) : r.oneEighth.codePoint ∈ r.permitted :=
  List.mem_append_right _ ((r.mem_extension_iff _).2 (.inr rfl))

theorem OneEighth.codePoint_ne_apostrophe (e : OneEighth) : e.codePoint ≠ apostrophe := by
  cases e <;> decide

/-- How many bytes decode to a permitted character: one, but two to the apostrophe and three to the one-eighth block (ROM-4 to
ROM-6). -/
theorem CharRom.Admissible.decodings_eq {r : CharRom} (h : r.Admissible) {c : CodePoint} (hc : c ∈ r.permitted) :
    r.decodings c = 1 + (if c = apostrophe then 1 else 0) + if c = r.oneEighth.codePoint then 2 else 0 := by
  by_cases ha : c = apostrophe
  · have hne : c ≠ r.oneEighth.codePoint := ha ▸ r.oneEighth.codePoint_ne_apostrophe.symm
    rw [if_pos ha, if_neg hne, ha, h.rom4]
  by_cases he : c = r.oneEighth.codePoint
  · rw [if_neg ha, if_pos he, he, h.rom5]
  · rw [if_neg ha, if_neg he, h.rom6 c hc ha he]

/-- What is added for one character is added once over distinct characters. -/
theorem sum_map_ite_of_nodup {l : List CodePoint} (h : l.Nodup) {a : CodePoint} (ha : a ∈ l) (k : Nat) :
    (l.map fun c => if c = a then k else 0).sum = k := by
  rw [List.sum_map_eq_nsmul_single a _ fun c hc _ => if_neg hc, List.count_eq_one_of_mem h ha, if_pos rfl, one_nsmul]

theorem CharRom.Admissible.sum_decodings {r : CharRom} (h : r.Admissible) :
    (r.permitted.map r.decodings).sum = r.permitted.length + 3 := by
  rw [List.map_congr_left fun c hc => h.decodings_eq hc, List.sum_map_add, List.sum_map_add,
    sum_map_ite_of_nodup r.permitted_nodup h.apostrophe_permitted, sum_map_ite_of_nodup r.permitted_nodup r.oneEighth_permitted]
  simp

theorem CharRom.Admissible.dec_not_permitted_iff {r : CharRom} (h : r.Admissible) (b : Byte) :
    r.dec b ∉ r.permitted ↔ r.dec b = replacementChar :=
  ⟨h.dec_eq_replacementChar_of_not_permitted, fun hb => hb ▸ r.replacementChar_not_permitted⟩

/-- Settles O57: the bytes are counted character by character, and those left decode to U+FFFD. -/
theorem romConsequences : Obligations.RomConsequences := by
  rintro ⟨r, h⟩
  have hpermitted : (allBytes.countP fun b => decide (r.dec b ∈ r.permitted)) = r.permitted.length + 3 := by
    rw [r.countP_dec_mem r.permitted_nodup, h.sum_decodings]
  refine ⟨fun c d b hc hd => ?injective, hpermitted, ?others⟩
  case injective => rw [← h.rom2 c b hc, h.rom2 d b hd]
  case others =>
    have hlength : allBytes.length = 256 := by simp [allBytes]
    have hsplit := List.length_eq_countP_add_countP (l := allBytes) fun b => decide (r.dec b ∈ r.permitted)
    have hothers : (allBytes.countP fun b => decide ¬ decide (r.dec b ∈ r.permitted) = true) =
        allBytes.countP fun b => r.dec b == replacementChar :=
      List.countP_congr fun b _ => by simp [h.dec_not_permitted_iff]
    rw [hlength, hpermitted, hothers] at hsplit
    change (allBytes.countP fun b => r.dec b == replacementChar) = 256 - r.permitted.length - 3
    omega

end Sys2Proof

namespace Sys2Proof.Machine

/-! ## Whole sequences -/

theorem mem_firstOccurrences_iff (c : CodePoint) (s : List CodePoint) : c ∈ firstOccurrences s ↔ c ∈ s := by
  induction s with
  | nil => rfl
  | cons d s ih =>
    rw [firstOccurrences, List.mem_cons, List.mem_filter, ih, List.mem_cons]
    by_cases h : c = d <;> simp [h]

theorem offending_eq_nil_iff (rom : CharRom) (s : List CodePoint) :
    offending rom s = [] ↔ ∀ c ∈ s, c ∈ rom.permitted := by
  simp [offending, List.eq_nil_iff_forall_not_mem, mem_firstOccurrences_iff]

theorem encodeText_of_permitted {rom : CharRom} {s : List CodePoint} (h : ∀ c ∈ s, c ∈ rom.permitted) :
    encodeText rom s = .ok (s.filterMap (romEnc rom)) := if_pos ((offending_eq_nil_iff rom s).2 h)

theorem exists_encodeText_eq_ok_iff (rom : CharRom) (s : List CodePoint) :
    (∃ bs, encodeText rom s = .ok bs) ↔ ∀ c ∈ s, c ∈ rom.permitted := by
  rw [← offending_eq_nil_iff, encodeText]
  split_ifs with h <;> simp [h]

/-- Under an admissible ROM a text is encoded exactly by one byte for each character. -/
theorem encodeText_eq_ok_iff {rom : CharRom} (h : rom.Admissible) (s : List CodePoint) (bs : List Byte) :
    encodeText rom s = .ok bs ↔ s.map (romEnc rom) = bs.map some := by
  constructor
  · intro hs
    have hall := (exists_encodeText_eq_ok_iff rom s).1 ⟨bs, hs⟩
    rw [encodeText_of_permitted hall] at hs
    cases hs
    rw [List.map_filterMap_some_eq_filter_map_isSome, List.filter_eq_self.2]
    rintro _ ho
    obtain ⟨c, hc, rfl⟩ := List.mem_map.1 ho
    exact (h.rom1 c).2 (hall c hc)
  · intro hs
    have hall : ∀ c ∈ s, c ∈ rom.permitted := by
      intro c hc
      have hmem : romEnc rom c ∈ bs.map some := hs ▸ List.mem_map_of_mem hc
      obtain ⟨b, -, hb⟩ := List.mem_map.1 hmem
      exact (h.rom1 c).1 (by rw [show rom.enc c = some b from hb.symm]; rfl)
    have hbytes : s.filterMap (romEnc rom) = bs := by
      have hid := congrArg (List.filterMap id) hs
      simpa [List.filterMap_map] using hid
    rw [encodeText_of_permitted hall, hbytes]

/-- Decoding undoes encoding (ROM-2). -/
theorem decodeBytes_of_encodeText_eq_ok {rom : CharRom} (h : rom.Admissible) {s : List CodePoint} {bs : List Byte}
    (hs : encodeText rom s = .ok bs) : decodeBytes rom bs = s := by
  rw [encodeText_eq_ok_iff h] at hs
  induction s generalizing bs with
  | nil => rw [List.map_eq_nil_iff.1 hs.symm]; rfl
  | cons c s ih =>
    cases bs with
    | nil => cases hs
    | cons b bs =>
      obtain ⟨hc, hs⟩ := List.cons.inj hs
      rw [decodeBytes, List.map_cons, show romDec rom b = c from h.rom2 c b hc]
      exact congrArg (c :: ·) (ih hs)

theorem canonicalByte_iff {rom : CharRom} (h : rom.Admissible) (b : Byte) :
    canonicalByte rom b ↔ romEnc rom (romDec rom b) = some b := by
  refine and_iff_right_of_imp fun hb => (h.rom1 _).1 ?_
  rw [show rom.enc (romDec rom b) = some b from hb]
  rfl

theorem encodeText_decodeBytes_eq_ok_iff {rom : CharRom} (h : rom.Admissible) (bs : List Byte) :
    encodeText rom (decodeBytes rom bs) = .ok bs ↔ ∀ b ∈ bs, canonicalByte rom b := by
  simp only [encodeText_eq_ok_iff h, decodeBytes, List.map_map, List.map_inj_left, canonicalByte_iff h, Function.comp_apply]

theorem encodeText_replacementChar (rom : CharRom) :
    encodeText rom [replacementChar] = .error (.validation [replacementChar] rom.permitted) := by
  have hoffending : offending rom [replacementChar] = [replacementChar] := by
    simp [offending, rom.replacementChar_not_permitted, firstOccurrences]
  rw [encodeText, hoffending]
  rfl

/-- Settles O58: (a) and (d) are that decoding undoes encoding, and (b) and (c) are read off byte by byte. -/
theorem codecRoundTrips : Obligations.CodecRoundTrips := by
  rintro ⟨rom, h⟩
  refine ⟨fun s hs => ?text, encodeText_decodeBytes_eq_ok_iff h, fun b hb hnot => ?notCanonical, fun b hb => ?unmapped,
    fun s bs hs => ?textThrice, fun bs => ?bytesThrice, fun bs cs => decodeBytes_of_encodeText_eq_ok h⟩
  case text =>
    obtain ⟨bs, hbs⟩ := (exists_encodeText_eq_ok_iff rom s).2 hs
    exact ⟨bs, hbs, decodeBytes_of_encodeText_eq_ok h hbs⟩
  case notCanonical =>
    obtain ⟨b', hb'⟩ := h.exists_enc_of_permitted hb
    refine ⟨b', hb', ?_⟩
    rintro rfl
    exact hnot ((canonicalByte_iff h _).2 hb')
  case unmapped =>
    have hdec : romDec rom b = replacementChar := (h.dec_not_permitted_iff b).1 hb
    exact ⟨hdec, by rw [hdec]; exact encodeText_replacementChar rom⟩
  case textThrice =>
    rw [decodeBytes_of_encodeText_eq_ok h hs]
    exact hs
  case bytesThrice =>
    change (∃ cs, encodeText rom (decodeBytes rom bs) = .ok cs) ↔ ∀ b ∈ bs, romDec rom b ∈ rom.permitted
    rw [exists_encodeText_eq_ok_iff, decodeBytes, List.forall_mem_map]

/-! ## The commands over sequences -/

theorem effectsOf_encStr (s : List CodePoint) (r : Registers) :
    effectsOf (s.map .enc) r = (r, s.map (encResponse Config.charRom.val)) := by
  induction s with
  | nil => rfl
  | cons c s ih =>
    rw [List.map_cons, effectsOf_cons, effectOf, ih]
    rfl

theorem effectsOf_decBytes (bs : List Byte) (r : Registers) :
    effectsOf (bs.map .dec) r = (r, bs.map (decResponse Config.charRom.val)) := by
  induction bs with
  | nil => rfl
  | cons b bs ih =>
    rw [List.map_cons, effectsOf_cons, effectOf, ih]
    rfl

section EncResponses

variable {rom : CharRom}

theorem encResponse_out (c : CodePoint) : (encResponse rom c).out = (romEnc rom c).toList := by
  rcases encResponse_cases rom c with ⟨b, hb, hp⟩ | ⟨hnone, hp⟩
  · rw [hp, romEnc, hb]
    rfl
  · rw [hp, romEnc, hnone]
    rfl

theorem encResponse_status_of_permitted (h : rom.Admissible) {c : CodePoint} (hc : c ∈ rom.permitted) :
    (encResponse rom c).status = .ok := by
  obtain ⟨b, hb⟩ := h.exists_enc_of_permitted hc
  rw [encResponse_of_enc_eq_some hb]

theorem encResponse_of_not_permitted (h : rom.Admissible) {c : CodePoint} (hc : c ∉ rom.permitted) :
    encResponse rom c = ⟨.validationError, c.setWidth 32, []⟩ :=
  encResponse_of_enc_eq_none (h.enc_eq_none_of_not_permitted hc)

theorem outBytes_encResponses (s : List CodePoint) :
    outBytes (s.map (encResponse rom)) = s.filterMap (romEnc rom) := by
  induction s with
  | nil => rfl
  | cons c s ih =>
    rw [List.map_cons, outBytes_cons, ih, encResponse_out]
    cases hc : romEnc rom c <;> simp [hc]

theorem forall_encResponse_ok_iff (h : rom.Admissible) (s : List CodePoint) :
    (∀ p ∈ s.map (encResponse rom), p.status = .ok) ↔ ∀ c ∈ s, c ∈ rom.permitted := by
  rw [List.forall_mem_map]
  refine forall₂_congr fun c _ => ⟨fun hok => ?_, encResponse_status_of_permitted h⟩
  by_contra hc
  simp [encResponse_of_not_permitted h hc] at hok

/-- The values of the VALIDATION_ERROR responses are the offending characters. -/
theorem validationError_values (h : rom.Admissible) (s : List CodePoint) :
    (((s.map (encResponse rom)).filter fun p => p.status = .validationError).map fun p => p.value.setWidth 21) =
      s.filter (· ∉ rom.permitted) := by
  induction s with
  | nil => rfl
  | cons c s ih =>
    by_cases hc : c ∈ rom.permitted
    · simpa [encResponse_status_of_permitted h hc, hc] using ih
    · simpa [encResponse_of_not_permitted h hc, hc] using ih

end EncResponses

/-- Settles O59: the responses of ENC and DEC are those of each character and byte, and no register changes. -/
theorem codecCommandsComputeTheFunctions : Obligations.CodecCommandsComputeTheFunctions := by
  have h := Config.charRom.property
  refine ⟨fun st s => ?encode, fun st bs => ?decode⟩
  case encode =>
    obtain ⟨t, hrun, hregs⟩ := exists_run (Pseudo.encStr s).expand st
    rw [Pseudo.expand, effectsOf_encStr] at hrun hregs
    refine ⟨t, _, hrun, hregs, fun hok => ?_, fun hfail => ?_⟩
    · rw [encodeText_of_permitted ((forall_encResponse_ok_iff h s).1 hok), outBytes_encResponses]
    · have hoffending : offending Config.charRom.val s ≠ [] := fun hnil =>
        hfail ((forall_encResponse_ok_iff h s).2 ((offending_eq_nil_iff _ s).1 hnil))
      rw [encodeText, if_neg hoffending, validationError_values h]
      rfl
  case decode =>
    obtain ⟨t, hrun, hregs⟩ := exists_run (Pseudo.decBytes bs).expand st
    rw [Pseudo.expand, effectsOf_decBytes] at hrun hregs
    refine ⟨t, _, hrun, hregs, ?_⟩
    rw [decodeBytes, List.map_map, List.map_map]
    rfl

end Sys2Proof.Machine
